-- ==== Sys2Proof/Word.lean ====
section
/-! DEFINITION. The word types of the machine: 8-bit bytes and registers, 16-bit words, 4-bit instruction fields.
All values are unsigned (spec/00_scope.md R8: this hardware has no signed quantity). -/

namespace Sys2Proof

/-- A memory byte and the content of a general register: 8 bits (R11, R30). -/
abbrev Byte := BitVec 8

/-- An instruction word, a program counter value, a call-stack entry: 16 bits (R5, R10, R50). -/
abbrev Word := BitVec 16

/-- One of the four 4-bit fields of an instruction word (R51). -/
abbrev Nibble := BitVec 4

end Sys2Proof
end

