-- ==== Sys2Proof/Config.lean ====
section
/-! DEFINITION. The implementation parameters of spec/00_scope.md R5. Every one is fixed; the spec leaves none as an
argument of the model and lists no behaviour of which the value is free (spec/93_implementation_defined.md, end of
part 1), so there is no free value here. -/

namespace Sys2Proof.Config

/-- `NREGS`: the number of general registers (R5). -/
abbrev numRegs : Nat := 16

/-- `MEM_SIZE`: memory has addresses 0 to 4095 (R5, R30). -/
abbrev memSize : Nat := 4096

/-- `ADDR_FIELD`: the width of the address field `nnn` (R5, R54). -/
abbrev addrField : Nat := 12

/-- `STACK_DEPTH`: the number of entries of the call stack (R5, R20). -/
abbrev stackDepth : Nat := 16

/-- `ILEN` in bytes: every instruction is two bytes long (R5, R50). -/
abbrev instrBytes : Nat := 2

/-- `FLAG_REG`: the register that ADD writes its carry to, `VF` = `x[15]` (R5, R12). -/
abbrev flagReg : Fin numRegs := 15

/-- `RESET_PC`: the address of the first instruction fetched (R5, R151). -/
abbrev resetPc : Word := 0

/-- What a byte of memory holds that nothing has written: the reset contents (R29). -/
abbrev resetByte : Byte := 0

end Sys2Proof.Config
end

