-- ==== Sys2Proof/Syntax.lean ====
section
/-! DEFINITION. The four instructions of the cpu_in_rust instruction set (spec/30_encoding.md R55), with their operands
as the decoder reads them (R54). The operand types admit exactly the values the encoding has (R59). -/

namespace Sys2Proof

/-- The index of a general register: a 4-bit field, so 0 to 15 by construction (R11, R54). -/
abbrev RegIndex := Fin Config.numRegs

/-- The operand `nnn` of CALL: an unsigned 12-bit absolute byte address (R54). -/
abbrev Target := BitVec Config.addrField

/-- The instructions, one constructor per row of spec/opcode_table.json. -/
inductive Instr where
  /-- HALT: stop the loop (R84). -/
  | halt
  /-- RET: pop a return address and jump to it (R96). -/
  | ret
  /-- CALL `nnn`: push the program counter and jump to `nnn` (R95). -/
  | call (nnn : Target)
  /-- ADD `x`, `y`: register-to-register add with carry flag (R105); `x` is destination and first source. -/
  | add (x y : RegIndex)
deriving DecidableEq, Repr

end Sys2Proof
end

