-- ==== Sys2Proof/WellFormed.lean ====
section
/-! DEFINITION. Well-formedness against the operand ranges of spec/30_encoding.md R62 (the assembler form, where
operands are plain numbers). A term of `Instr` is within the ranges by its types (R59: operand fields have no reserved
values); an assembler term may be out of them, and is then refused. -/

namespace Sys2Proof

/-- An instruction as R62 writes it: operands are numbers of any size. -/
inductive AsmInstr where
  | halt
  | ret
  | call (nnn : Nat)
  | add (x y : Nat)
deriving DecidableEq, Repr

/-- The operand ranges of R62: `nnn` 0 to 4095, `x` and `y` 0 to 15. -/
def AsmInstr.wellFormed : AsmInstr → Bool
  | .halt => true
  | .ret => true
  | .call nnn => nnn < 2 ^ Config.addrField
  | .add x y => x < Config.numRegs && y < Config.numRegs

/-- The instruction an assembler term stands for; none where an operand is out of range. -/
def AsmInstr.toInstr : AsmInstr → Option Instr
  | .halt => some .halt
  | .ret => some .ret
  | .call nnn => if nnn < 2 ^ Config.addrField then some (.call (BitVec.ofNat _ nnn)) else none
  | .add x y =>
    if h : x < Config.numRegs ∧ y < Config.numRegs then some (.add ⟨x, h.1⟩ ⟨y, h.2⟩) else none

/-- The word of an assembler term, by the arithmetic of R62's table. -/
def AsmInstr.word : AsmInstr → Nat
  | .halt => 0x0000
  | .ret => 0x00EE
  | .call nnn => 0x2000 + nnn
  | .add x y => 0x8004 + 256 * x + 16 * y

/-- The assembler form of an instruction. -/
def Instr.toAsm : Instr → AsmInstr
  | .halt => .halt
  | .ret => .ret
  | .call nnn => .call nnn.toNat
  | .add x y => .add x.val y.val

/-- An instruction is well-formed when its assembler form has its operands in range. -/
def Instr.wellFormed (i : Instr) : Bool := i.toAsm.wellFormed

end Sys2Proof
end

