-- ==== Sys2Proof/Decode.lean ====
section
/-! DEFINITION. From bytes to words to fields to instructions, and back: spec/40_fetch_decode.md R71, R73 and the opcode
map of spec/30_encoding.md R51 to R61. Decoding is total on all 65536 words; a word that matches no row is rejected by
name, carrying the word (R57, R58). -/

namespace Sys2Proof

/-- The byte order of instructions is big-endian: the byte at the lower address is the high half (R32, R71). -/
def wordOfBytes (high low : Byte) : Word := high ++ low

/-- `word[15:8]`, the byte at the lower address (R61). -/
def highByte (w : Word) : Byte := w.extractLsb' 8 8

/-- `word[7:0]`, the byte at the higher address (R61). -/
def lowByte (w : Word) : Byte := w.extractLsb' 0 8

/-- The record that `Decode(word)` yields: exactly these five fields (R73, R75). -/
structure Fields where
  c : Nibble
  x : Nibble
  y : Nibble
  d : Nibble
  nnn : Target
deriving DecidableEq, Repr

/-- `Decode(word)`: the fields of a word (R51, R73). -/
def fieldsOf (w : Word) : Fields where
  c := w.extractLsb' 12 4
  x := w.extractLsb' 8 4
  y := w.extractLsb' 4 4
  d := w.extractLsb' 0 4
  nnn := w.extractLsb' 0 12

/-- The word that four nibbles make, `c || x || y || d` (R74). -/
def wordOfNibbles (c x y d : Nibble) : Word := c ++ x ++ y ++ d

/-- What the dispatch match makes of a word: an instruction, or the explicit unimplemented variant that carries the raw
word (R57). -/
inductive Decoded where
  | operation (i : Instr)
  | unimplemented (word : Word)
deriving DecidableEq, Repr

/-- The dispatch match on the fields, lines 5 to 9 of R81; the patterns are those of R55. -/
def decode (w : Word) : Decoded :=
  let f := fieldsOf w
  if f.c = 0x0 ∧ f.x = 0x0 ∧ f.y = 0x0 ∧ f.d = 0x0 then .operation .halt
  else if f.c = 0x0 ∧ f.x = 0x0 ∧ f.y = 0xE ∧ f.d = 0xE then .operation .ret
  else if f.c = 0x2 then .operation (.call f.nnn)
  else if f.c = 0x8 ∧ f.d = 0x4 then .operation (.add f.x.toFin f.y.toFin)
  else .unimplemented w

/-- A register index as the 4-bit field that names it (R54). -/
def regField (i : RegIndex) : Nibble := BitVec.ofFin i

/-- The word of an instruction, from the bit patterns of R55. -/
def encode : Instr → Word
  | .halt => 0b0000000000000000
  | .ret => 0b0000000011101110
  | .call nnn => (0b0010 : Nibble) ++ nnn
  | .add x y => (0b1000 : Nibble) ++ regField x ++ regField y ++ (0b0100 : Nibble)

/-- A row of the opcode table: a word `w` selects it when `w AND mask = pattern` (R55). -/
structure OpRow where
  mnemonic : String
  mask : Word
  pattern : Word
deriving DecidableEq, Repr

/-- A word selects a row (R55). -/
def OpRow.selects (r : OpRow) (w : Word) : Bool := w &&& r.mask == r.pattern

/-- The complete opcode table (R55). -/
def opTable : List OpRow :=
  [{ mnemonic := "HALT", mask := 0xFFFF, pattern := 0x0000 },
   { mnemonic := "RET", mask := 0xFFFF, pattern := 0x00EE },
   { mnemonic := "CALL", mask := 0xF000, pattern := 0x2000 },
   { mnemonic := "ADD", mask := 0xF00F, pattern := 0x8004 }]

/-- No word selects both rows: some bit that both fix has different values in the two (R57). -/
def OpRow.disjoint (r q : OpRow) : Bool := r.mask &&& q.mask &&& (r.pattern ^^^ q.pattern) != 0

/-- The table's name for an instruction. -/
def Instr.mnemonic : Instr → String
  | .halt => "HALT"
  | .ret => "RET"
  | .call _ => "CALL"
  | .add _ _ => "ADD"

/-- The instruction the decoder reads from the table word `w` of `nbits` bits, laid out in bytes as the hardware stores
it (R61) and put together again as the fetch does (R71). -/
def decodeTableWord (nbits w : Nat) : Option Instr :=
  let word : Word := BitVec.ofNat 16 (w % 2 ^ nbits)
  match decode (wordOfBytes (highByte word) (lowByte word)) with
  | .operation i => some i
  | .unimplemented _ => none

end Sys2Proof
end

