-- ==== Sys2Proof/Machine/State.lean ====
section
/-! DEFINITION. The complete state of the hardware (spec/10_state.md R10), the reasons a step can stop, and the state
after reset (R29). Plain data throughout. -/

namespace Sys2Proof.Machine

/-- The four fatal errors (spec/60_exceptions.md R120): the closed list of what the fault record can hold. An instruction
or fetch that raises one ends in a next state whose `run` is `faulted` and whose `fault` names it; a further `step` of that
state, in which no step is taken (R80), surfaces the record as the outcome `fault` (R125, R138). -/
inductive Fault where
  /-- Raised by the step before its fetch when `pc + 1 >= 4096` (R121). Safe: the spec ends the run here too. -/
  | memoryBoundsError
  /-- Raised by CALL when `sp = 16` on entry (R122). Safe: the spec ends the run here too. -/
  | stackOverflowError
  /-- Raised by RET when `sp = 0` on entry (R123). Safe: the spec ends the run here too. -/
  | stackUnderflowError
  /-- Raised by the dispatch match for a fetched word that matches none of the four patterns; carries that word (R124).
  Safe: the spec ends the run here too. -/
  | unimplementedOpcodeError (word : Word)
deriving DecidableEq, Repr

/-- Why the model gives a request no meaning. None of these is an instruction's outcome. -/
inductive Refusal where
  /-- An arm of `exec` without a meaning. No arm of this model raises it. Safe. -/
  | notModelled (mnemonic : String)
  /-- Raised by `step` while `run = Preload`: the host has not invoked the run loop, so no step is taken (R24, R81). Safe. -/
  | loopNotInvoked
  /-- Raised by `step` once `run = Halted`: no step is taken, ever (R80). Safe. -/
  | loopHalted
  /-- Raised by `step` in a state with `run = Faulted` and no fault record; no run reaches one (R25). Safe. -/
  | faultRecordMissing
  /-- Raised by a host write or a host run outside the Preload phase (R153 to R155, R158). Safe. -/
  | notInPreload
  /-- Raised by a host write whose register index, memory address or value is out of range, or a host read of a register
  that does not exist (R153, R156, D23). Safe. -/
  | hostOperandOutOfRange
  /-- Raised by a host register read before or without a normal halt (R155 to R157, D10). Safe. -/
  | notHalted
  /-- Raised by a host read of the fault record when no fault has ended the run (R157). Safe. -/
  | notFaulted
deriving DecidableEq, Repr

/-- The state of the dispatch loop (R24). -/
inductive RunState where
  /-- Constructed and zeroed; the host may write registers and memory; no step is taken. -/
  | preload
  /-- The dispatch loop takes steps. -/
  | running
  /-- Normal termination; terminal. -/
  | halted
  /-- Fatal termination; terminal; `fault` says why. -/
  | faulted
deriving DecidableEq, Repr

/-- An address of memory: 0 to 4095 (R30). No other address exists. -/
abbrev Addr := Fin Config.memSize

/-- Memory as the list of its bytes that differ from the reset contents, by rising address. -/
abbrev Memory := List Host.Cell

/-- The whole state (R10): these seven pieces and nothing else. -/
structure State where
  /-- The general registers `x[0..15]`; `x[15]` is also the flag register `VF` (R11, R12). -/
  x : Vector Byte Config.numRegs
  /-- The program counter, 16 bits unsigned (R15, D1). -/
  pc : Word
  /-- Memory, `mem[0..4095]` (R23). -/
  mem : Memory
  /-- The call stack, 16 return addresses of 16 bits, storage of its own (R20, R45). -/
  stack : Vector Word Config.stackDepth
  /-- The stack pointer, 0 to 16: the number of entries in use (R21, D2). -/
  sp : Fin (Config.stackDepth + 1)
  /-- The run state (R24). -/
  run : RunState
  /-- The fault record: none until a fatal error (R25). -/
  fault : Option Fault
deriving DecidableEq, Repr

/-- The state after reset, that is, after construction (R29, R150). -/
def State.reset : State where
  x := Vector.replicate _ 0
  pc := Config.resetPc
  mem := []
  stack := Vector.replicate _ 0
  sp := 0
  run := .preload
  fault := none

end Sys2Proof.Machine
end

