-- ==== Sys2Proof/Machine/Ops.lean ====
section
/-! DEFINITION. The named operations over memory, registers, the program counter, the call stack and the run state, and
the one operation that takes a fatal error. Everything that reads or writes the state goes through these. -/

namespace Sys2Proof.Machine

/-! ### Memory (spec/20_memory.md) -/

/-- The canonical form: addresses strictly rising and all inside memory, and no byte equal to the reset contents. -/
abbrev Memory.wf (m : Memory) : Prop :=
  m.Pairwise (fun p q => p.1 < q.1) ∧ ∀ c ∈ m, c.1 < Config.memSize ∧ c.2 ≠ Config.resetByte

/-- The byte listed at an address, or the reset contents where none is listed (R29, R40). -/
def Memory.lookup : Memory → Nat → Byte
  | [], _ => Config.resetByte
  | (k, v) :: rest, a => if a = k then v else Memory.lookup rest a

/-- `MemRead(addr, 1)`: a pure read of one byte (R8, R36). -/
def Memory.read (m : Memory) (a : Addr) : Byte := m.lookup a.val

/-- Put a byte before a list of higher addresses, unless it equals the reset contents. -/
def Memory.consByte (a : Nat) (b : Byte) (rest : Memory) : Memory :=
  if b = Config.resetByte then rest else (a, b) :: rest

/-- Store a byte in the sorted list, keeping the canonical form. -/
def Memory.insert : Memory → Nat → Byte → Memory
  | [], a, b => Memory.consByte a b []
  | (k, v) :: rest, a, b =>
    if a < k then Memory.consByte a b ((k, v) :: rest)
    else if a = k then Memory.consByte a b rest
    else (k, v) :: Memory.insert rest a b

/-- `MemWrite(addr, 1, v)` (R8). Only the host uses it (R31, R43). -/
def Memory.write (m : Memory) (a : Addr) (b : Byte) : Memory := m.insert a.val b

/-! ### Registers, program counter, run state (spec/10_state.md) -/

/-- Read register `i`; none is hardwired (R14). -/
def State.readReg (s : State) (i : RegIndex) : Byte := s.x[i]

/-- `x[i] <- v`. -/
def State.writeReg (s : State) (i : RegIndex) (v : Byte) : State := { s with x := s.x.set i v }

/-- `pc <- v`. -/
def State.setPc (s : State) (v : Word) : State := { s with pc := v }

/-- Line 3 of R81: `pc <- pc + 2`, for every fetched word, before decode and execution (R82). -/
def State.advancePc (s : State) : State := s.setPc (s.pc + BitVec.ofNat 16 Config.instrBytes)

/-- `run <- v`. -/
def State.setRun (s : State) (v : RunState) : State := { s with run := v }

/-- `mem[a] <- b`. -/
def State.writeMem (s : State) (a : Addr) (b : Byte) : State := { s with mem := s.mem.write a b }

/-! ### Taking a fatal error (spec/00_scope.md R8, spec/60_exceptions.md R125 to R127) -/

/-- `raise <Error>(info)`: `run <- Faulted`, `fault <- <Error>(info)`, and nothing else. There is no handler, no saved
`pc` and no return from it (R125, R128). -/
def State.raise (s : State) (e : Fault) : State := { s with run := .faulted, fault := some e }

/-- The spec's own numerals for the four errors (R120). -/
def Fault.code : Fault → Nat
  | .memoryBoundsError => 1
  | .stackOverflowError => 2
  | .stackUnderflowError => 3
  | .unimplementedOpcodeError _ => 4

/-! ### The call stack (spec/42_call_return.md) -/

/-- The push of CALL: `stack[sp] <- v`, then `sp <- sp + 1`; none when `sp = 16`, before any write (R95). -/
def State.push (s : State) (v : Word) : Option State :=
  if h : s.sp.val < Config.stackDepth then
    some { s with stack := s.stack.set s.sp.val v, sp := ⟨s.sp.val + 1, Nat.succ_lt_succ h⟩ }
  else none

/-- The pop of RET: `sp <- sp - 1`, then the entry at the new `sp`, which keeps its value; none when `sp = 0` (R96,
R22). -/
def State.pop (s : State) : Option (Word × State) :=
  if h : 0 < s.sp.val then
    some (s.stack[s.sp.val - 1]'(by have := s.sp.isLt; simp at this ⊢; omega),
      { s with sp := ⟨s.sp.val - 1, Nat.lt_of_le_of_lt (Nat.sub_le _ _) s.sp.isLt⟩ })
  else none

/-! ### Fetch (spec/40_fetch_decode.md) -/

/-- `Fetch(pc)`, with its precondition: the two bytes at `pc`, high byte first; no side effect, no alignment check
(R71, R72, R34). -/
def fetchWord (m : Memory) (pc : Word) (h : pc.toNat + 1 < Config.memSize) : Word :=
  wordOfBytes (m.read ⟨pc.toNat, Nat.lt_of_succ_lt h⟩) (m.read ⟨pc.toNat + 1, h⟩)

/-- The bounds condition of line 1 of R81 with the fetch of line 2: none where the fetch is refused as a whole (R35). -/
def State.fetch (s : State) : Option Word :=
  if h : s.pc.toNat + 1 < Config.memSize then some (fetchWord s.mem s.pc h) else none

/-- A word stored at the program counter as R61 lays it out; nothing where no word fits. -/
def State.placeWord (s : State) (w : Word) : State :=
  if h : s.pc.toNat + 1 < Config.memSize then
    (s.writeMem ⟨s.pc.toNat, Nat.lt_of_succ_lt h⟩ (highByte w)).writeMem ⟨s.pc.toNat + 1, h⟩ (lowByte w)
  else s

end Sys2Proof.Machine
end

