-- ==== Sys2Proof/Machine/Operands.lean ====
section
/-! DEFINITION. The operand forms of spec/30_encoding.md R54: the absolute address of format A and the register operands
of format R. Format Z has no operand (R53). -/

namespace Sys2Proof.Machine

/-- Format A: `nnn` zero-extended to the 16-bit program counter: absolute, not scaled, not relative, not sign extended
(R54). -/
def targetAddress (nnn : Target) : Word := nnn.setWidth 16

/-- Format R: a register operand is the register's value, as an unsigned number; both operands are read before any write
(R54, R105). -/
def registerOperand (s : State) (i : RegIndex) : Nat := (s.readReg i).toNat

end Sys2Proof.Machine
end

