-- ==== Sys2Proof/Machine/Flags.lean ====
section
/-! DEFINITION. The only flag, the carry in `x[15]` (spec/10_state.md R19), and the wrapped sum it goes with
(spec/43_arithmetic.md R107). Both are computed from the exact mathematical sum. -/

namespace Sys2Proof.Machine

/-- `s mod 256` = `s[7:0]`: wrapping 8-bit addition narrows the exact sum (R105, R107). -/
def wrapSum (sum : Nat) : Byte := BitVec.ofNat 8 (sum % 256)

/-- `1 if s > 255 else 0`: the unsigned carry; "exceeds 255" is strict (R105, R106). -/
def carryFlag (sum : Nat) : Byte := if sum > 255 then 1 else 0

/-- The flag write of ADD: the whole of `x[15]`, always performed (R105, R19). -/
def State.writeFlag (s : State) (v : Byte) : State := s.writeReg Config.flagReg v

end Sys2Proof.Machine
end

