-- ==== Sys2Proof/Machine/Arithmetic.lean ====
section
/-! DEFINITION. ADD, the only instruction that touches the register file (spec/43_arithmetic.md). -/

namespace Sys2Proof.Machine

/-- ADD `x`, `y` (R105): both reads first, then the sum to `x[fx]`, then the flag to `x[15]`, which wins when `fx = 15`. -/
def execAdd (fx fy : RegIndex) (s : State) : Host.Outcome State Fault Refusal :=
  let sum := registerOperand s fx + registerOperand s fy
  .next ((s.writeReg fx (wrapSum sum)).writeFlag (carryFlag sum))

end Sys2Proof.Machine
end

