-- ==== Sys2Proof/Machine/Control.lean ====
section
/-! DEFINITION. HALT (spec/41_dispatch_halt.md), CALL and RET (spec/42_call_return.md). Each acts on a state whose `pc`
was already advanced past the instruction (R82). -/

namespace Sys2Proof.Machine

/-- HALT (R84): `run <- Halted`, and nothing else. -/
def execHalt (s : State) : Host.Outcome State Fault Refusal := .next (s.setRun .halted)

/-- CALL `nnn` (R95): push the advanced `pc`, jump to `nnn`; StackOverflowError on a full stack, before any write. -/
def execCall (nnn : Target) (s : State) : Host.Outcome State Fault Refusal :=
  match s.push s.pc with
  | some s' => .next (s'.setPc (targetAddress nnn))
  | none => .next (s.raise .stackOverflowError)

/-- RET (R96): pop the return address into `pc`; StackUnderflowError on an empty stack, before any write. -/
def execRet (s : State) : Host.Outcome State Fault Refusal :=
  match s.pop with
  | some (address, s') => .next (s'.setPc address)
  | none => .next (s.raise .stackUnderflowError)

end Sys2Proof.Machine
end

