-- ==== Sys2Proof/Machine/Dispatch.lean ====
section
/-! DEFINITION. The routing of an instruction to its handler (spec/41_dispatch_halt.md R83): a handler receives only its
operands and the shared state (R88). -/

namespace Sys2Proof.Machine

def exec (i : Instr) (s : State) : Host.Outcome State Fault Refusal :=
  match i with
  | .halt => Sys2Proof.Machine.execHalt s
  | .ret => Sys2Proof.Machine.execRet s
  | .call nnn => Sys2Proof.Machine.execCall nnn s
  | .add x y => Sys2Proof.Machine.execAdd x y s

end Sys2Proof.Machine
end

