-- ==== Sys2Proof/Machine/Cycle.lean ====
section
/-! DEFINITION. One pass of the dispatch loop, the nine lines of spec/41_dispatch_halt.md R81, and what a request for a
step answers where no step is taken (R80). -/

namespace Sys2Proof.Machine

/-- Lines 4 to 9 of R81, on the state whose `pc` line 3 has advanced: decode and dispatch, or
UnimplementedOpcodeError with the fetched word (R83, R85). -/
def dispatchWord (w : Word) (s : State) : Host.Outcome State Fault Refusal :=
  match decode w with
  | .operation i => exec i s
  | .unimplemented word => .next (s.raise (.unimplementedOpcodeError word))

/-- Lines 1 to 9 of R81: the bounds check, before anything is read or advanced (R35, R121); the fetch; the advance; the
dispatch. -/
def cycle (s : State) : Host.Outcome State Fault Refusal :=
  match s.fetch with
  | none => .next (s.raise .memoryBoundsError)
  | some w => dispatchWord w s.advancePc

/-- No step is taken in `Faulted` (R80): the record is surfaced (R125, R138). -/
def surfaceFault (s : State) : Host.Outcome State Fault Refusal :=
  match s.fault with
  | some e => .fault e
  | none => .refused .faultRecordMissing

end Sys2Proof.Machine
end

