-- ==== Sys2Proof/Machine/Step.lean ====
section
/-! DEFINITION. The step of the machine, taken only while `run = Running` (spec/41_dispatch_halt.md R80, R81), and the
placing of one instruction where the next step fetches it. -/

namespace Sys2Proof.Machine

/-- One step. In the three other run states no step is taken (R24, R80). -/
def step (s : State) : Host.Outcome State Fault Refusal :=
  match s.run with
  | .preload => .refused .loopNotInvoked
  | .running => cycle s
  | .halted => .refused .loopHalted
  | .faulted => surfaceFault s

/-- The state with one instruction's word stored at `pc` and the run loop invoked, so that the next step fetches and runs
it: what the host's HostWriteMem twice and HostRun do from reset (R153, R154). -/
def State.withFetchWord (s : State) (nbits w : Nat) : State :=
  (s.placeWord (BitVec.ofNat 16 (w % 2 ^ nbits))).setRun .running

end Sys2Proof.Machine
end

