-- ==== Sys2Proof/Machine/HostInterface.lean ====
section
/-! DEFINITION. The entry point by which a host constructs, pre-seeds, runs and reads back the state
(spec/70_reset_and_hazards.md R152 to R158): the four operations of D13, the reading of the fault record, and the run
loop they start. -/

namespace Sys2Proof.Machine

/-- `HostWriteReg(i, v)`: only in Preload, `i` in 0 to 15, `v` an 8-bit value (R153, D23). -/
def hostWriteReg (i v : Nat) (s : State) : Host.Outcome State Fault Refusal :=
  if s.run = .preload then
    if h : i < Config.numRegs ∧ v < 256 then .next (s.writeReg ⟨i, h.1⟩ (BitVec.ofNat 8 v))
    else .refused .hostOperandOutOfRange
  else .refused .notInPreload

/-- `HostWriteMem(a, v)`: only in Preload, `a` in 0 to 4095, `v` an 8-bit value (R153, D23). -/
def hostWriteMem (a v : Nat) (s : State) : Host.Outcome State Fault Refusal :=
  if s.run = .preload then
    if h : a < Config.memSize ∧ v < 256 then .next (s.writeMem ⟨a, h.1⟩ (BitVec.ofNat 8 v))
    else .refused .hostOperandOutOfRange
  else .refused .notInPreload

/-- `HostRun`: precondition `run = Preload`; `run <- Running` and nothing else; then the loop takes steps (R154). -/
def hostRun (s : State) : Host.Outcome State Fault Refusal :=
  if s.run = .preload then .next (s.setRun .running) else .refused .notInPreload

/-- `HostReadReg(i)`: only after a normal halt (R156, R157). -/
def hostReadReg (i : Nat) (s : State) : Except Refusal Byte :=
  if s.run = .halted then
    if h : i < Config.numRegs then .ok (s.readReg ⟨i, h⟩) else .error .hostOperandOutOfRange
  else .error .notHalted

/-- After `Faulted` the host receives the fault record, and nothing else (R157). -/
def hostReadFault (s : State) : Except Refusal Fault :=
  if s.run = .faulted then
    match s.fault with
    | some e => .ok e
    | none => .error .faultRecordMissing
  else .error .notFaulted

/-- The dispatch loop for at most `fuel` steps: it leaves `Running` only by a halt or a fault (R80, R86). The machine has
no step budget; the fuel is the model's (D24). -/
def runLoop : Nat → State → State
  | 0, s => s
  | fuel + 1, s =>
    match s.run with
    | .running =>
      match step s with
      | .next s' => runLoop fuel s'
      | .fault _ => s
      | .refused _ => s
    | .preload => s
    | .halted => s
    | .faulted => s

/-- The result of a run: halted with the final state, or faulted with the record (R86, R138). -/
inductive RunResult where
  | halted (final : State)
  | faulted (record : Fault)
deriving DecidableEq, Repr

/-- The result a state that has left `Running` gives the host; none while there is no result. -/
def State.result (s : State) : Option RunResult :=
  match s.run with
  | .preload => none
  | .running => none
  | .halted => some (.halted s)
  | .faulted => s.fault.map .faulted

end Sys2Proof.Machine
end

