-- ==== Sys2Proof/Safety.lean ====
section
/-! DEFINITION. What counts as a good state and a safe run, in the terms the statements use. -/

namespace Sys2Proof

open Sys2Proof.Machine

/-- The invariant of the machine: what holds in every state reachable from reset. -/
structure Machine.State.Inv (s : State) : Prop where
  /-- Memory keeps its canonical form. -/
  memWf : s.mem.wf
  /-- `0 <= pc <= 4096` (R18). -/
  pcRange : s.pc.toNat ≤ Config.memSize
  /-- Every live stack entry is a pushed link value, `2 <= stack[i] <= 4096` (R22). -/
  liveEntries : ∀ i : Fin Config.stackDepth, i.val < s.sp.val →
    2 ≤ s.stack[i].toNat ∧ s.stack[i].toNat ≤ Config.memSize
  /-- The record is `none` until a fatal error, then names it (R25). -/
  faultRecord : s.run = .faulted ↔ s.fault ≠ none
  /-- The host cannot write `pc`, `stack` or `sp`: they are still zero when a run starts (R153). -/
  preloadFresh : s.run = .preload →
    s.pc = Config.resetPc ∧ s.sp = 0 ∧ ∀ i : Fin Config.stackDepth, s.stack[i] = 0

/-- The states the hardware can be in: reset, then host operations and steps (R152). -/
inductive Reachable : State → Prop where
  | reset : Reachable State.reset
  | writeReg {s t : State} {i v : Nat} : Reachable s → hostWriteReg i v s = .next t → Reachable t
  | writeMem {s t : State} {a v : Nat} : Reachable s → hostWriteMem a v s = .next t → Reachable t
  | run {s t : State} : Reachable s → hostRun s = .next t → Reachable t
  | step {s t : State} : Reachable s → Machine.step s = .next t → Reachable t

/-- The loop is running and the next step fetches the word `w` (lines 1 and 2 of R81). -/
def Machine.State.Fetches (s : State) (w : Word) : Prop := s.run = .running ∧ s.fetch = some w

/-- The next step fetches the word of the instruction `i`. -/
def Machine.State.AboutToRun (s : State) (i : Instr) : Prop := s.Fetches (encode i)

/-- No step is taken ever again (R80). -/
def Machine.State.Terminal (s : State) : Prop := s.run = .halted ∨ s.run = .faulted

/-- The run from `s` ends normally, in a state with the property. A faulted run satisfies no postcondition (R125). -/
def HaltsWith (s : State) (post : State → Prop) : Prop :=
  ∃ fuel, (runLoop fuel s).run = .halted ∧ post (runLoop fuel s)

/-- The run from `s` raises no fatal error, however long it is followed. -/
def FaultFree (s : State) : Prop := ∀ fuel, (runLoop fuel s).run ≠ .faulted

/-- `p` lists the states of consecutive steps, from the first to the one numbered `n`. -/
def StepPath (p : Nat → State) (n : Nat) : Prop := ∀ i < n, Machine.step (p i) = .next (p (i + 1))

end Sys2Proof
end

