-- ==== Sys2Proof/Certificates/Slice0/Obligations.lean ====
section
/-! DEFINITION. The statements for the provers. Each docstring names the rule of the spec it formalises; where a clause
rests on a decision or a derivation that the spec marks as its own, the docstring says so. -/

open Sys2Proof Sys2Proof.Machine

/-! ### Reset -/

/-- R29, R150: every piece of state after reset. The clause `run = Preload` is the spec's decision D16 (log entry 2). -/
def Obligations.ResetZeroesEverything : Prop :=
  (∀ i : RegIndex, State.reset.x[i] = 0) ∧ State.reset.pc = 0 ∧ (∀ a : Addr, State.reset.mem.read a = 0) ∧
  (∀ i : Fin 16, State.reset.stack[i] = 0) ∧ State.reset.sp = 0 ∧ State.reset.run = .preload ∧
  State.reset.fault = none

/-- The invariant of the machine (R18, R21, R22, R25, R153) holds at reset. Its clause `faultRecord` rests on the spec's
decision D4 (log entry 1), its clause `preloadFresh` on D9 (log entry 8), its clause `memWf` on the model's own form of
memory (log entry 6). -/
def Obligations.ResetMeetsInv : Prop := State.reset.Inv

/-! ### Fetch and decode -/

/-- R32, R71: the fetched word is made of the byte at `pc` as its high half and the byte at `pc + 1` as its low half. -/
def Obligations.FetchIsBigEndian : Prop :=
  ∀ (s : State) (h : s.pc.toNat + 1 < 4096), ∃ w, s.fetch = some w ∧
    highByte w = s.mem.read ⟨s.pc.toNat, Nat.lt_of_succ_lt h⟩ ∧ lowByte w = s.mem.read ⟨s.pc.toNat + 1, h⟩ ∧
    w = ((s.mem.read ⟨s.pc.toNat, Nat.lt_of_succ_lt h⟩).setWidth 16 <<< 8) |||
        (s.mem.read ⟨s.pc.toNat + 1, h⟩).setWidth 16

/-- R35, R34: a fetch is allowed exactly when `pc + 1 < 4096`, whatever the parity of `pc`. That no parity is refused is
the spec's decision D7, that the check precedes both reads its decision D8. -/
def Obligations.FetchAllowedByBoundsOnly : Prop :=
  ∀ s : State, (∃ w, s.fetch = some w) ↔ s.pc.toNat ≤ 4094

/-- R73: the five fields of a word, by masking and shifting. -/
def Obligations.FieldsByMaskAndShift : Prop :=
  ∀ w : Word,
    (fieldsOf w).c = ((w &&& 0xF000) >>> 12).setWidth 4 ∧ (fieldsOf w).x = ((w &&& 0x0F00) >>> 8).setWidth 4 ∧
    (fieldsOf w).y = ((w &&& 0x00F0) >>> 4).setWidth 4 ∧ (fieldsOf w).d = (w &&& 0x000F).setWidth 4 ∧
    (fieldsOf w).nnn = (w &&& 0x0FFF).setWidth 12

/-- R74, R51: the word is recoverable from its four nibbles, and `nnn` is the last three of them. -/
def Obligations.WordRecoverableFromFields : Prop :=
  ∀ w : Word, let f := fieldsOf w
    wordOfNibbles f.c f.x f.y f.d = w ∧ f.nnn.toNat = 256 * f.x.toNat + 16 * f.y.toNat + f.d.toNat

/-- R55, R57: at most one row of the opcode table selects a word; the decoder answers the instruction of that row, or the
unimplemented variant with the word itself when no row selects it. -/
def Obligations.DecodeFollowsOpcodeTable : Prop :=
  ∀ w : Word,
    (∀ r ∈ opTable, ∀ q ∈ opTable, r.selects w = true → q.selects w = true → r = q) ∧
    (∀ i, decode w = .operation i → ∃ r ∈ opTable, r.mnemonic = i.mnemonic ∧ r.selects w = true) ∧
    (∀ r ∈ opTable, r.selects w = true → ∃ i, decode w = .operation i ∧ i.mnemonic = r.mnemonic) ∧
    ((∀ r ∈ opTable, r.selects w = false) → decode w = .unimplemented w)

/-- R56, R58 (R56 is derived by the spec from R55): the map of all 65536 words, operands included. -/
def Obligations.DecodeMapOfAllWords : Prop :=
  ∀ w : Word,
    (w.toNat = 0 → decode w = .operation .halt) ∧
    (w.toNat = 0x00EE → decode w = .operation .ret) ∧
    (∀ nnn : Target, w.toNat = 0x2000 + nnn.toNat → decode w = .operation (.call nnn)) ∧
    (∀ x y : RegIndex, w.toNat = 0x8004 + 256 * x.val + 16 * y.val → decode w = .operation (.add x y)) ∧
    (w.toNat ≠ 0 → w.toNat ≠ 0x00EE → w.toNat / 4096 ≠ 2 → ¬(w.toNat / 4096 = 8 ∧ w.toNat % 16 = 4) →
      decode w = .unimplemented w)

/-- R56 (derived by the spec from R55): 4354 words are implemented and 61182 are not. -/
def Obligations.CountOfImplementedWords : Prop :=
  ((Finset.range 65536).filter fun n => (decodeTableWord 16 n).isSome = true).card = 4354 ∧
  ((Finset.range 65536).filter fun n => (decodeTableWord 16 n).isSome = false).card = 61182

/-- Decode and encode agree, for every instruction with every operand: no bit of an encoding is dropped (R54, R55, R61). -/
def Obligations.DecodeOfEncode : Prop :=
  ∀ i : Instr, decode (encode i) = .operation i ∧ decodeTableWord 16 (encode i).toNat = some i

/-- R57, R59: each implemented word has one meaning: the instruction decoded from it encodes to it again. -/
def Obligations.EncodeOfDecode : Prop :=
  ∀ (w : Word) (i : Instr), decode w = .operation i → encode i = w

/-- R62 (the assembler form is the spec's decision D14): an assembler term is accepted exactly when its operands are in
range, and its word is then the number of R62's table. -/
def Obligations.AssemblerFormMatchesEncoding : Prop :=
  ∀ a : AsmInstr, (a.wellFormed = true ↔ ∃ i, a.toInstr = some i) ∧
    ∀ i, a.toInstr = some i → i.toAsm = a ∧ (encode i).toNat = a.word

/-- Words written out from the patterns of R55 decode to the instructions they stand for, and three neighbours to none
(95_test_vectors.md section 3). -/
def Obligations.SampleWordsDecode : Prop :=
  decode 0b0000000000000000 = .operation .halt ∧ decode 0b0000000011101110 = .operation .ret ∧
  decode 0b0010101010111100 = .operation (.call 0xABC) ∧ decode 0b1000110000110100 = .operation (.add 12 3) ∧
  decode 0b0000000011100000 = .unimplemented 0x00E0 ∧ decode 0b0001001000110100 = .unimplemented 0x1234 ∧
  decode 0b1000000100100011 = .unimplemented 0x8123

/-- R61 (derived by the spec) and the model's own `withFetchWord` (log entry 3): a word placed at the program counter
occupies the two bytes there, high byte first, and no other, and is the word the next step fetches. -/
def Obligations.PlacedWordIsFetched : Prop :=
  ∀ (s : State) (w : Word) (h : s.pc.toNat + 1 < 4096), s.mem.wf →
    let t := s.withFetchWord 16 w.toNat
    t.Fetches w ∧ t.mem.read ⟨s.pc.toNat, Nat.lt_of_succ_lt h⟩ = highByte w ∧
    t.mem.read ⟨s.pc.toNat + 1, h⟩ = lowByte w ∧
    (∀ a : Addr, a.val ≠ s.pc.toNat → a.val ≠ s.pc.toNat + 1 → t.mem.read a = s.mem.read a) ∧
    t.x = s.x ∧ t.pc = s.pc ∧ t.stack = s.stack ∧ t.sp = s.sp ∧ t.fault = s.fault

/-! ### The step -/

/-- R81, R82, R83: when the word at `pc` decodes to an instruction, the step runs it on the state whose `pc` has been
advanced by 2, and does nothing else. -/
def Obligations.StepRunsDecodedInstr : Prop :=
  ∀ (s : State) (w : Word) (i : Instr), s.Fetches w → decode w = .operation i →
    step s = exec i { s with pc := s.pc + 2 }

/-- R35, R121: a step that begins with `pc + 1 >= 4096` raises MemoryBoundsError and changes nothing else, `pc` included.
The state after is the spec's decision D5, the place of the check its decisions D8 and D21 (log entry 1). -/
def Obligations.FetchPastEndIsMemoryBoundsError : Prop :=
  ∀ s : State, s.run = .running → 4096 ≤ s.pc.toNat + 1 →
    step s = .next { s with run := .faulted, fault := some .memoryBoundsError }

/-- R85, R124: a fetched word that matches none of the four patterns raises UnimplementedOpcodeError. That this is a next
state with `run` faulted and nothing else changed is the spec's decisions D4 and D5 (log entry 1); that `pc` is advanced
and that the record carries the fetched word is its conflict C8 and decision D22 (log entry 11). -/
def Obligations.UnmatchedWordIsUnimplementedOpcodeError : Prop :=
  ∀ (s : State) (w : Word), s.Fetches w → (∀ r ∈ opTable, r.selects w = false) →
    step s = .next { s with pc := s.pc + 2, run := .faulted, fault := some (.unimplementedOpcodeError w) }

/-- R80: in `Halted` and `Faulted` no step is taken. What a request for a step answers there instead is the model's
choice (log entry 2). -/
def Obligations.NoStepOutsideRunning : Prop :=
  (∀ s t : State, s.run ≠ .running → step s ≠ .next t) ∧
  (∀ s : State, s.run = .preload → step s = .refused .loopNotInvoked) ∧
  (∀ s : State, s.run = .halted → step s = .refused .loopHalted) ∧
  (∀ (s : State) (e : Fault), s.run = .faulted → s.fault = some e → step s = .fault e)

/-- R81: while `run = Running` the step always answers a next state, so that no hang outcome is needed (R87, derived by the
spec). That a step which raises a fatal error answers a next state too is the spec's decision D4 (log entry 1, DEDUCED);
R81 and R87 do not say it. -/
def Obligations.RunningStepAlwaysCompletes : Prop :=
  ∀ s : State, s.run = .running → ∃ t, step s = .next t

/-- R80: the loop leaves `Running` in exactly two ways: the fetched word is the all-zero word, or one of the four fatal
errors is raised, each under its own condition (R120). The value `Faulted` and the record are the spec's decisions D4 and
D6 (log entry 1), the overflow at `sp = 16` is its decision D3 (log entry 5), the word that UnimplementedOpcodeError
carries its decision D22 (log entry 11), the check before the fetch its decisions D8 and D21 (log entry 7). -/
def Obligations.LeavesRunningByHaltOrFatalError : Prop :=
  ∀ s t : State, step s = .next t →
    (t.run = .halted ↔ s.fetch = some 0) ∧
    (t.run = .faulted ↔
      (s.fetch = none ∧ t.fault = some .memoryBoundsError) ∨
      (∃ nnn, s.AboutToRun (.call nnn) ∧ s.sp.val = 16 ∧ t.fault = some .stackOverflowError) ∨
      (s.AboutToRun .ret ∧ s.sp.val = 0 ∧ t.fault = some .stackUnderflowError) ∨
      (∃ w, s.Fetches w ∧ decode w = .unimplemented w ∧ t.fault = some (.unimplementedOpcodeError w))) ∧
    (t.run ≠ .faulted → t.fault = s.fault) ∧ t.run ≠ .preload

/-- R16 (derived by the spec from R81, R95, R96): how each outcome of a step leaves `pc`. For the outcomes that are fatal
errors it rests on the spec's decision D5 (log entry 1), for the full stack on D3 (log entry 5), for an unimplemented word
on C8 and D22 (log entry 11). -/
def Obligations.PcAfterEachOutcome : Prop :=
  ∀ s t : State, step s = .next t →
    (s.fetch = none → t.pc = s.pc) ∧
    (∀ nnn, s.AboutToRun (.call nnn) → s.sp.val < 16 → t.pc.toNat = nnn.toNat) ∧
    (s.AboutToRun .ret → ∀ i : Fin 16, s.sp.val = i.val + 1 → t.pc = s.stack[i]) ∧
    (∀ w, s.Fetches w → ¬((∃ nnn, w = encode (.call nnn)) ∧ s.sp.val < 16) → ¬(w = encode .ret ∧ 0 < s.sp.val) →
      t.pc.toNat = s.pc.toNat + 2)

/-- R13, R22, R26, R31: no step writes memory; only ADD touches the register file; only CALL writes the stack; only CALL
and RET write `sp`. (R22 is derived by the spec.) -/
def Obligations.StepWritesOnlyWhatItsInstrMay : Prop :=
  ∀ s t : State, step s = .next t →
    (∀ a : Addr, t.mem.read a = s.mem.read a) ∧ t.mem = s.mem ∧
    ((∀ x y, ¬s.AboutToRun (.add x y)) → t.x = s.x) ∧
    ((∀ nnn, ¬s.AboutToRun (.call nnn)) → t.stack = s.stack) ∧
    ((∀ nnn, ¬s.AboutToRun (.call nnn)) → ¬s.AboutToRun .ret → t.sp = s.sp)

/-! ### The instructions -/

/-- R84: HALT sets `run` and nothing else; fetched from `A` it leaves `pc = A + 2`, with any depth of the call stack and
at the last fetchable address too. -/
def Obligations.HaltStopsTheLoop : Prop :=
  (∀ s : State, exec .halt s = .next { s with run := .halted }) ∧
  (∀ s : State, s.Fetches 0x0000 → step s = .next { s with pc := s.pc + 2, run := .halted })

/-- R95 with room on the stack: CALL pushes the `pc` it finds (already advanced), counts `sp` up and jumps; registers,
memory and every other stack entry are unchanged. -/
def Obligations.CallPushesAndJumps : Prop :=
  ∀ (nnn : Target) (s : State) (i : Fin 16), s.sp.val = i.val → ∃ t, exec (.call nnn) s = .next t ∧
    t.stack[i] = s.pc ∧ t.sp.val = s.sp.val + 1 ∧ t.pc = nnn.setWidth 16 ∧
    (∀ j : Fin 16, j ≠ i → t.stack[j] = s.stack[j]) ∧ t.x = s.x ∧ (∀ a : Addr, t.mem.read a = s.mem.read a) ∧
    t.mem = s.mem ∧ t.run = s.run ∧ t.fault = s.fault

/-- R95, R122: CALL with `sp = 16` raises StackOverflowError before any of its writes. The tight check is the spec's
decision D3, the state after its decision D5 (log entries 1 and 5). -/
def Obligations.CallOnFullStackIsOverflow : Prop :=
  ∀ (nnn : Target) (s : State), s.sp.val = 16 →
    exec (.call nnn) s = .next { s with run := .faulted, fault := some .stackOverflowError }

/-- R96: RET, word `0x00EE`, takes the top entry into `pc` and counts `sp` down; the stack keeps its entries; with an
empty stack it raises StackUnderflowError before either write (R123). That this is a next state with `run` faulted and
nothing else changed is the spec's decisions D4 and D5 (log entry 1). -/
def Obligations.RetPopsAndJumps : Prop :=
  encode .ret = 0x00EE ∧
  (∀ (s : State) (i : Fin 16), s.sp.val = i.val + 1 → ∃ t, exec .ret s = .next t ∧
    t.pc = s.stack[i] ∧ t.sp.val = i.val ∧ t.stack = s.stack ∧ t.x = s.x ∧
    (∀ a : Addr, t.mem.read a = s.mem.read a) ∧ t.mem = s.mem ∧ t.run = s.run ∧ t.fault = s.fault) ∧
  (∀ s : State, s.sp.val = 0 →
    exec .ret s = .next { s with run := .faulted, fault := some .stackUnderflowError })

/-- R105: ADD `x`, `y`, word `0x8xy4`: the wrapped sum goes to `x[fx]`, then the carry to `x[15]`, so the flag stands when
`fx = 15`; nothing else changes. -/
def Obligations.AddWritesSumThenFlag : Prop :=
  ∀ (fx fy : RegIndex) (s : State),
    (encode (.add fx fy)).toNat = 0x8004 + 256 * fx.val + 16 * fy.val ∧
    ∃ t, exec (.add fx fy) s = .next t ∧
      (fx ≠ 15 → t.x[fx].toNat = (s.x[fx].toNat + s.x[fy].toNat) % 256) ∧
      t.x[15] = (if s.x[fx].toNat + s.x[fy].toNat > 255 then 1 else 0) ∧
      (∀ j : RegIndex, j ≠ fx → j ≠ 15 → t.x[j] = s.x[j]) ∧
      t.pc = s.pc ∧ (∀ a : Addr, t.mem.read a = s.mem.read a) ∧ t.mem = s.mem ∧ t.stack = s.stack ∧ t.sp = s.sp ∧
      t.run = s.run ∧ t.fault = s.fault

/-- R106 (derived by the spec from R105): the aliased forms of ADD. -/
def Obligations.AddAliasedOperands : Prop :=
  (∀ (f : RegIndex) (s : State), f ≠ 15 → ∃ t, exec (.add f f) s = .next t ∧
    t.x[f].toNat = 2 * s.x[f].toNat % 256 ∧ t.x[15] = (if s.x[f].toNat ≥ 128 then 1 else 0)) ∧
  (∀ (fy : RegIndex) (s : State), fy ≠ 15 → ∃ t, exec (.add 15 fy) s = .next t ∧
    t.x[fy] = s.x[fy] ∧ t.x[15] = (if s.x[15].toNat + s.x[fy].toNat > 255 then 1 else 0)) ∧
  (∀ s : State, ∃ t, exec (.add 15 15) s = .next t ∧ t.x[15] = (if s.x[15].toNat ≥ 128 then 1 else 0)) ∧
  (∀ (fx : RegIndex) (s : State), fx ≠ 15 → ∃ t, exec (.add fx 15) s = .next t ∧
    t.x[fx] = s.x[fx] + s.x[15])

/-- R108: ADD cannot raise any error; the step that would execute one can fault only before it, at the bounds check. -/
def Obligations.AddNeverFaults : Prop :=
  (∀ (fx fy : RegIndex) (s : State), ∃ t, exec (.add fx fy) s = .next t ∧ t.run = s.run ∧ t.fault = s.fault) ∧
  (∀ (fx fy : RegIndex) (s : State), s.AboutToRun (.add fx fy) →
    ∃ t, step s = .next t ∧ t.run = .running ∧ t.fault = s.fault)

/-- R161: (a) the `pc` advance precedes execution, so CALL links `A + 2`; (b) ADD writes the sum first and the flag
second, so the flag wins when the destination is register 15. -/
def Obligations.OrderInsideAStep : Prop :=
  (∀ (s : State) (nnn : Target) (i : Fin 16), s.AboutToRun (.call nnn) → s.sp.val = i.val →
    ∃ t, step s = .next t ∧ t.stack[i].toNat = s.pc.toNat + 2) ∧
  (∀ (s : State) (fy : RegIndex), s.AboutToRun (.add 15 fy) →
    ∃ t, step s = .next t ∧ t.x[15] = (if s.x[15].toNat + s.x[fy].toNat > 255 then 1 else 0))

/-- R45: CALL and RET (and, R31, HALT and ADD) make no memory access: what a handler does is the same over any memory. -/
def Obligations.HandlersMakeNoMemoryAccess : Prop :=
  ∀ (i : Instr) (s t : State) (m : Memory), exec i s = .next t → exec i { s with mem := m } = .next { t with mem := m }

/-- R39, R121 (R39 is derived by the spec): CALL `0xFFF`, an ADD at 4093 or 4094, and a RET to 4095 or 4096 complete, and
the fault belongs to the next step, which raises MemoryBoundsError with `pc` unchanged. The state after that error is the
spec's decisions D4 and D5 (log entry 1), the place of the check its decisions D8 and D21, the fetch at the odd address
4093 its decision D7 (log entry 7). -/
def Obligations.EndOfMemoryFaultsOnNextStep : Prop :=
  (∀ s : State, s.AboutToRun (.call 0xFFF) → s.sp.val < 16 →
    ∃ t, step s = .next t ∧ t.run = .running ∧ t.pc = 4095 ∧
      step t = .next { t with run := .faulted, fault := some .memoryBoundsError }) ∧
  (∀ (s : State) (fx fy : RegIndex), s.AboutToRun (.add fx fy) → s.pc.toNat = 4093 ∨ s.pc.toNat = 4094 →
    ∃ t, step s = .next t ∧ t.run = .running ∧ t.pc.toNat = s.pc.toNat + 2 ∧
      step t = .next { t with run := .faulted, fault := some .memoryBoundsError }) ∧
  (∀ (s : State) (i : Fin 16), s.AboutToRun .ret → s.sp.val = i.val + 1 →
    s.stack[i].toNat = 4095 ∨ s.stack[i].toNat = 4096 →
    ∃ t, step s = .next t ∧ t.run = .running ∧ t.pc = s.stack[i] ∧
      step t = .next { t with run := .faulted, fault := some .memoryBoundsError })

/-! ### Whole-machine rules -/

/-- R13, R19: no instruction reads a register but ADD, and none tests the flag: two states that differ only in their
registers take steps that differ only in their registers. -/
def Obligations.RegistersNeverSteerControl : Prop :=
  ∀ (s t : State) (regs : Vector Byte 16), step s = .next t →
    ∃ regs', step { s with x := regs } = .next { t with x := regs' }

/-- R31, R36: bytes that are not fetched are inert: over two memories that give the same fetch, a step does the same. -/
def Obligations.UnfetchedBytesAreInert : Prop :=
  ∀ (s t : State) (m : Memory), ({ s with mem := m } : State).fetch = s.fetch → step s = .next t →
    step { s with mem := m } = .next { t with mem := m }

/-- R23, R40, R43: during a run memory is never written: after any number of steps it is what the host left. -/
def Obligations.RunKeepsMemory : Prop :=
  ∀ (fuel : Nat) (s : State), (runLoop fuel s).mem = s.mem

/-- Every step keeps the invariant (R18, R21, R22, R25: in part derived by the spec), from every state that meets it. Its
clause `faultRecord` rests on the spec's decision D4 (log entry 1), its clause `preloadFresh` on D9 (log entry 8), its
clause `memWf` on the model's own form of memory (log entry 6). -/
def Obligations.StepKeepsInv : Prop :=
  ∀ s t : State, s.Inv → step s = .next t → t.Inv

/-- Every host operation keeps the invariant (R153, R154). What the host may write, and when, is the spec's decision D9 (log
entry 8); the clause `memWf` is the model's own form of memory (log entry 6). -/
def Obligations.HostOperationsKeepInv : Prop :=
  (∀ (s t : State) (i v : Nat), s.Inv → hostWriteReg i v s = .next t → t.Inv) ∧
  (∀ (s t : State) (a v : Nat), s.Inv → hostWriteMem a v s = .next t → t.Inv) ∧
  (∀ s t : State, s.Inv → hostRun s = .next t → t.Inv)

/-- R18 and R22 as the spec states them, for every reachable state (both are derived by the spec): `pc` is at most 4096,
and every live stack entry is in 2 to 4096. That the host writes neither `pc` nor the stack is its decision D9 (log
entry 8). -/
def Obligations.ReachablePcAndLinksInRange : Prop :=
  ∀ s : State, Reachable s → s.pc.toNat ≤ 4096 ∧
    ∀ i : Fin 16, i.val < s.sp.val → 2 ≤ s.stack[i].toNat ∧ s.stack[i].toNat ≤ 4096

/-- R25, R128: the fault record is written at most once: a state from which a step is taken has none, and a step that
writes it is the last one; the record is what the host then receives (R157). That the error is a next state is the spec's
decision D4 (log entry 1); that a further request for a step surfaces the record is the model's choice (log entry 2). -/
def Obligations.FaultIsWrittenOnce : Prop :=
  ∀ s t : State, s.Inv → step s = .next t → s.fault = none ∧
    ∀ e, t.fault = some e → t.run = .faulted ∧ step t = .fault e ∧ hostReadFault t = .ok e

/-- R87 (derived by the spec from R81, R95, R96, R105): every run ends, from every running state, reachable or not. That a
fatal error ends it in a state with `run` faulted is the spec's decision D4 (log entry 1). -/
def Obligations.EveryRunEnds : Prop :=
  ∀ s : State, s.run = .running → ∃ fuel, (runLoop fuel s).Terminal

/-- R86, R80, D24: a run that has ended stays as it is, however much fuel the model gives it. -/
def Obligations.EndedRunIsFinal : Prop :=
  ∀ (s : State) (fuel : Nat), (runLoop fuel s).Terminal → ∀ more, fuel ≤ more → runLoop more s = runLoop fuel s

/-- R86, R125: the result of a run is either halted or faulted, never both and never neither: a run from a running state is
free of fatal errors exactly when it halts (R87, derived by the spec). The value `Faulted` is the spec's decision D4 (log
entry 1). -/
def Obligations.RunHaltsIffFaultFree : Prop :=
  ∀ s : State, s.run = .running → (FaultFree s ↔ HaltsWith s fun _ => True)

/-- R154, R86: HostRun is refused outside Preload (the spec's decision D11, the refusal's name the model's, log entry 8); in
Preload it sets `run` and nothing else, the loop starts with `pc = 0` (the host writes no `pc`: decision D9, log entry 8,
through the invariant), and it ends (R87, derived by the spec) with the result R86 names: halted with the final state, or
faulted with the record (decision D4, log entry 1). -/
def Obligations.HostRunReturnsResult : Prop :=
  (∀ s : State, s.run ≠ .preload → hostRun s = .refused .notInPreload) ∧
  ∀ s : State, s.Inv → s.run = .preload →
    hostRun s = .next { s with run := .running } ∧ s.pc = 0 ∧
    ∃ (fuel : Nat) (t : State), runLoop fuel { s with run := .running } = t ∧
      ((t.run = .halted ∧ t.result = some (.halted t)) ∨
        ∃ e, t.run = .faulted ∧ t.fault = some e ∧ t.result = some (.faulted e))

/-- R97 (derived by the spec from R95, R96): a CALL fetched from `A` with `sp = k`, then steps that keep `sp` above `k`,
then a RET executed with `sp = k + 1`: control is at `A + 2` and `sp` is `k` again. -/
def Obligations.MatchingRetReturnsAfterCall : Prop :=
  ∀ (p : Nat → State) (n k : Nat) (nnn : Target), StepPath p (n + 1) → (p 0).AboutToRun (.call nnn) →
    (p 0).sp.val = k → k < 16 → (∀ i, 1 ≤ i → i ≤ n → k < (p i).sp.val) → 1 ≤ n → (p n).AboutToRun .ret →
    (p n).sp.val = k + 1 → (p (n + 1)).pc.toNat = (p 0).pc.toNat + 2 ∧ (p (n + 1)).sp.val = k

/-- R95 (corner case b), R97, R99: nested CALLs succeed up to 16 live entries, each entry is the link of its own CALL,
and one more CALL is StackOverflowError (the tight check, decision D3, log entry 5; a next state with `run` faulted,
decisions D4 and D5, log entry 1). -/
def Obligations.NestedCallsUpToSixteen : Prop :=
  ∀ (p : Nat → State) (n : Nat), StepPath p n → (p 0).sp.val = 0 → n ≤ 16 →
    (∀ i, i < n → ∃ nnn, (p i).AboutToRun (.call nnn)) →
    (p n).sp.val = n ∧ (∀ i : Fin 16, i.val < n → (p n).stack[i].toNat = (p i.val).pc.toNat + 2) ∧
    ∀ nnn, (p n).AboutToRun (.call nnn) → ∃ t, step (p n) = .next t ∧
      (n = 16 → t.run = .faulted ∧ t.fault = some .stackOverflowError) ∧ (n < 16 → t.run = .running)

/-! ### Memory and the host interface -/

/-- The canonical form (log entry 6) is faithful to R23: memories that read the same at all 4096 addresses are equal. -/
def Obligations.CanonicalMemoriesAreEqual : Prop :=
  ∀ m n : Memory, m.wf → n.wf → (∀ a : Addr, m.read a = n.read a) → m = n

/-- R159: the order of host writes to different addresses does not matter, and a later write to an address replaces an
earlier one. -/
def Obligations.HostMemoryWritesCommute : Prop :=
  ∀ (m : Memory) (a a' : Addr) (b b' : Byte), m.wf →
    (a ≠ a' → (m.write a b).write a' b' = (m.write a' b').write a b) ∧ (m.write a b).write a b' = m.write a b'

/-- R153: HostWriteReg writes one register, 15 included, and nothing else. -/
def Obligations.HostWriteRegWritesOneRegister : Prop :=
  ∀ (s : State) (i : RegIndex) (v : Byte), s.run = .preload → ∃ t, hostWriteReg i.val v.toNat s = .next t ∧
    t.x[i] = v ∧ (∀ j : RegIndex, j ≠ i → t.x[j] = s.x[j]) ∧ t.pc = s.pc ∧ t.mem = s.mem ∧ t.stack = s.stack ∧
    t.sp = s.sp ∧ t.run = s.run ∧ t.fault = s.fault

/-- R153: HostWriteMem writes one byte, at any address 0 to 4095, and nothing else. -/
def Obligations.HostWriteMemWritesOneByte : Prop :=
  ∀ (s : State) (a : Addr) (v : Byte), s.run = .preload → s.mem.wf → ∃ t, hostWriteMem a.val v.toNat s = .next t ∧
    t.mem.read a = v ∧ (∀ b : Addr, b ≠ a → t.mem.read b = s.mem.read b) ∧ t.x = s.x ∧ t.pc = s.pc ∧
    t.stack = s.stack ∧ t.sp = s.sp ∧ t.run = s.run ∧ t.fault = s.fault

/-- R153, R155, R158: outside Preload every host write is refused; in Preload a write is refused exactly when an operand
is out of range (the spec's decisions D9, D11, D23; the name of the refusal is the model's, log entry 8). -/
def Obligations.HostWritesRefusedOutsideTheirPhase : Prop :=
  (∀ (s : State) (i v : Nat), s.run ≠ .preload →
    hostWriteReg i v s = .refused .notInPreload ∧ hostWriteMem i v s = .refused .notInPreload) ∧
  (∀ (s : State) (i v : Nat), s.run = .preload →
    (hostWriteReg i v s = .refused .hostOperandOutOfRange ↔ 16 ≤ i ∨ 256 ≤ v) ∧
    (hostWriteMem i v s = .refused .hostOperandOutOfRange ↔ 4096 ≤ i ∨ 256 ≤ v))

/-- R155 to R157: the host reads registers exactly after `Halted`, and the fault record exactly after `Faulted` (the
spec's decision D10). -/
def Obligations.HostReadsOnlyAfterTheEnd : Prop :=
  (∀ (s : State) (i : RegIndex), s.run = .halted → hostReadReg i.val s = .ok s.x[i]) ∧
  (∀ (s : State) (i : Nat) (v : Byte), hostReadReg i s = .ok v → s.run = .halted ∧ i < 16) ∧
  (∀ (s : State) (e : Fault), hostReadFault s = .ok e ↔ s.run = .faulted ∧ s.fault = some e)
end

