-- ==== Sys2Proof/Laws/Decode.lean ====
section
/-! SUPPORT. The fields of a word as the spec computes them, and the fields of an encoded instruction. -/

namespace Sys2Proof

/-- The number of a field is the mask and shift of R73. -/
theorem fieldsOf_toNat (w : Word) :
    (fieldsOf w).c.toNat = w.toNat / 4096 ∧ (fieldsOf w).x.toNat = w.toNat / 256 % 16 ∧
    (fieldsOf w).y.toNat = w.toNat / 16 % 16 ∧ (fieldsOf w).d.toNat = w.toNat % 16 ∧
    (fieldsOf w).nnn.toNat = w.toNat % 4096 := by
  have h := w.isLt
  simp only [fieldsOf, BitVec.extractLsb'_toNat, Nat.shiftRight_eq_div_pow]
  norm_num
  omega

/-- The word is recoverable from the number of its fields (R74). -/
theorem toNat_eq_of_fields (w : Word) :
    w.toNat = (fieldsOf w).c.toNat * 4096 + (fieldsOf w).x.toNat * 256 + (fieldsOf w).y.toNat * 16 +
      (fieldsOf w).d.toNat := by
  obtain ⟨hc, hx, hy, hd, -⟩ := fieldsOf_toNat w
  rw [hc, hx, hy, hd]
  omega

theorem append_toNat {m n : Nat} (a : BitVec m) (b : BitVec n) : (a ++ b).toNat = a.toNat * 2 ^ n + b.toNat := by
  rw [BitVec.toNat_append, Nat.shiftLeft_eq, ← Nat.shiftLeft_eq, Nat.shiftLeft_add_eq_or_of_lt b.isLt]

/-- The encoded words as numbers: the formulas of R62's table. -/
theorem encode_toNat (i : Instr) : (encode i).toNat = i.toAsm.word := by
  cases i with
  | halt => rfl
  | ret => rfl
  | call nnn =>
    simp only [encode, Instr.toAsm, AsmInstr.word]
    rw [append_toNat]
    rfl
  | add x y =>
    simp only [encode, Instr.toAsm, AsmInstr.word]
    rw [append_toNat, append_toNat, append_toNat]
    simp only [regField, BitVec.toNat_ofFin]
    simp
    omega

end Sys2Proof
end

