-- ==== Sys2Proof/Laws/Memory.lean ====
section
/-! SUPPORT. The laws of memory: a read after a write, and the canonical form kept by every operation. -/

namespace Sys2Proof.Machine.Memory

@[simp] theorem lookup_nil (a : Nat) : lookup [] a = 0 := rfl

@[simp] theorem lookup_cons (k : Nat) (v : Byte) (rest : Memory) (a : Nat) :
    lookup ((k, v) :: rest) a = if a = k then v else lookup rest a := rfl

/-- A byte that no entry lists reads as the reset contents. -/
theorem lookup_eq_zero_of_unlisted (m : Memory) (a : Nat) (h : ∀ c ∈ m, c.1 ≠ a) : m.lookup a = 0 := by
  induction m with
  | nil => rfl
  | cons c rest ih =>
    obtain ⟨k, v⟩ := c
    have hk : a ≠ k := fun e => h (k, v) (by simp) e.symm
    simp [hk, ih fun c hc => h c (by simp [hc])]

theorem lookup_consByte_self (a : Nat) (b : Byte) (rest : Memory) (h : ∀ c ∈ rest, a < c.1) :
    (consByte a b rest).lookup a = b := by
  unfold consByte
  split
  · rename_i hb
    rw [hb]
    exact lookup_eq_zero_of_unlisted rest a fun c hc => (Nat.ne_of_lt (h c hc)).symm
  · simp

theorem lookup_consByte_ne (a : Nat) (b : Byte) (rest : Memory) {a' : Nat} (h : a' ≠ a) :
    (consByte a b rest).lookup a' = rest.lookup a' := by
  unfold consByte
  split <;> simp [h]

/-- The head of a canonical list is below every later address. -/
theorem head_lt {k : Nat} {v : Byte} {rest : Memory} (h : Memory.wf ((k, v) :: rest)) : ∀ c ∈ rest, k < c.1 :=
  (List.pairwise_cons.1 h.1).1

theorem tail_wf {c : Host.Cell} {rest : Memory} (h : Memory.wf (c :: rest)) : Memory.wf rest :=
  ⟨(List.pairwise_cons.1 h.1).2, fun d hd => h.2 d (List.mem_cons_of_mem _ hd)⟩

/-- A byte inserted is read back. -/
theorem lookup_insert_self (m : Memory) (a : Nat) (b : Byte) (h : m.wf) : (m.insert a b).lookup a = b := by
  induction m with
  | nil => exact lookup_consByte_self a b [] (by simp)
  | cons c rest ih =>
    obtain ⟨k, v⟩ := c
    have hlt := head_lt h
    simp only [insert]
    split
    · rename_i hak
      exact lookup_consByte_self a b _ fun c hc => by
        rcases List.mem_cons.1 hc with rfl | hc
        · exact hak
        · exact Nat.lt_trans hak (hlt c hc)
    · split
      · rename_i hak
        exact lookup_consByte_self a b rest (hak ▸ hlt)
      · rename_i hak
        simp [hak, ih (tail_wf h)]

/-- An insertion leaves every other address alone. -/
theorem lookup_insert_ne (m : Memory) {a a' : Nat} (b : Byte) (h : a' ≠ a) :
    (m.insert a b).lookup a' = m.lookup a' := by
  induction m with
  | nil => exact lookup_consByte_ne a b [] h
  | cons c rest ih =>
    obtain ⟨k, v⟩ := c
    simp only [insert]
    split
    · exact lookup_consByte_ne a b _ h
    · split
      · rename_i hak
        rw [lookup_consByte_ne a b rest h]
        simp [← hak, h]
      · simp [ih]

/-- Every entry of a list after an insertion is the one inserted or was there before. -/
theorem mem_insert {m : Memory} {a : Nat} {b : Byte} {c : Host.Cell} (h : c ∈ m.insert a b) :
    (c = (a, b) ∧ b ≠ 0) ∨ c ∈ m := by
  induction m with
  | nil =>
    simp only [insert, consByte] at h
    split at h <;> simp_all
  | cons d rest ih =>
    obtain ⟨k, v⟩ := d
    simp only [insert, consByte] at h
    split at h
    · split at h <;> simp_all
    · split at h
      · split at h
        · exact .inr (List.mem_cons_of_mem _ h)
        · simp_all
          tauto
      · rcases List.mem_cons.1 h with rfl | h
        · exact .inr (List.mem_cons_self ..)
        · exact (ih h).imp_right (List.mem_cons_of_mem _)

theorem insert_pairwise (m : Memory) (a : Nat) (b : Byte) (h : m.wf) :
    (m.insert a b).Pairwise (fun p q => p.1 < q.1) := by
  induction m with
  | nil =>
    simp only [insert, consByte]
    split <;> simp
  | cons d rest ih =>
    obtain ⟨k, v⟩ := d
    have hlt := head_lt h
    simp only [insert, consByte]
    split
    · rename_i hak
      split
      · exact h.1
      · refine List.pairwise_cons.2 ⟨fun c hc => ?_, h.1⟩
        rcases List.mem_cons.1 hc with rfl | hc
        · exact hak
        · exact Nat.lt_trans hak (hlt c hc)
    · split
      · rename_i hak
        split
        · exact (tail_wf h).1
        · exact List.pairwise_cons.2 ⟨hak ▸ hlt, (tail_wf h).1⟩
      · rename_i hge hne
        refine List.pairwise_cons.2 ⟨fun c hc => ?_, ih (tail_wf h)⟩
        rcases mem_insert hc with ⟨rfl, -⟩ | hc
        · show k < a
          omega
        · exact hlt c hc

/-- A write keeps the canonical form. -/
theorem write_wf (m : Memory) (a : Addr) (b : Byte) (h : m.wf) : (m.write a b).wf := by
  refine ⟨insert_pairwise m a.val b h, fun c hc => ?_⟩
  rcases mem_insert hc with ⟨rfl, hb⟩ | hc
  · exact ⟨a.isLt, hb⟩
  · exact h.2 c hc

theorem read_write_self (m : Memory) (a : Addr) (b : Byte) (h : m.wf) : (m.write a b).read a = b :=
  lookup_insert_self m a.val b h

theorem read_write_ne (m : Memory) {a a' : Addr} (b : Byte) (h : a' ≠ a) : (m.write a b).read a' = m.read a' :=
  lookup_insert_ne m b fun e => h (Fin.ext e)

theorem nil_wf : Memory.wf ([] : Memory) := ⟨.nil, nofun⟩

@[simp] theorem read_nil (a : Addr) : Memory.read [] a = 0 := rfl

end Sys2Proof.Machine.Memory
end

