-- ==== Sys2Proof/Laws/State.lean ====
section
/-! SUPPORT. One lemma per field per update of the state, so that no later proof unfolds a record update. -/

namespace Sys2Proof.Machine.State

variable (s : State)

@[simp] theorem writeReg_x (i : RegIndex) (v : Byte) : (s.writeReg i v).x = s.x.set i v := rfl
@[simp] theorem writeReg_pc (i : RegIndex) (v : Byte) : (s.writeReg i v).pc = s.pc := rfl
@[simp] theorem writeReg_mem (i : RegIndex) (v : Byte) : (s.writeReg i v).mem = s.mem := rfl
@[simp] theorem writeReg_stack (i : RegIndex) (v : Byte) : (s.writeReg i v).stack = s.stack := rfl
@[simp] theorem writeReg_sp (i : RegIndex) (v : Byte) : (s.writeReg i v).sp = s.sp := rfl
@[simp] theorem writeReg_run (i : RegIndex) (v : Byte) : (s.writeReg i v).run = s.run := rfl
@[simp] theorem writeReg_fault (i : RegIndex) (v : Byte) : (s.writeReg i v).fault = s.fault := rfl

@[simp] theorem setPc_x (v : Word) : (s.setPc v).x = s.x := rfl
@[simp] theorem setPc_pc (v : Word) : (s.setPc v).pc = v := rfl
@[simp] theorem setPc_mem (v : Word) : (s.setPc v).mem = s.mem := rfl
@[simp] theorem setPc_stack (v : Word) : (s.setPc v).stack = s.stack := rfl
@[simp] theorem setPc_sp (v : Word) : (s.setPc v).sp = s.sp := rfl
@[simp] theorem setPc_run (v : Word) : (s.setPc v).run = s.run := rfl
@[simp] theorem setPc_fault (v : Word) : (s.setPc v).fault = s.fault := rfl

@[simp] theorem advancePc_x : (s.advancePc).x = s.x := rfl
@[simp] theorem advancePc_pc : (s.advancePc).pc = s.pc + 2 := rfl
@[simp] theorem advancePc_mem : (s.advancePc).mem = s.mem := rfl
@[simp] theorem advancePc_stack : (s.advancePc).stack = s.stack := rfl
@[simp] theorem advancePc_sp : (s.advancePc).sp = s.sp := rfl
@[simp] theorem advancePc_run : (s.advancePc).run = s.run := rfl
@[simp] theorem advancePc_fault : (s.advancePc).fault = s.fault := rfl

@[simp] theorem setRun_x (v : RunState) : (s.setRun v).x = s.x := rfl
@[simp] theorem setRun_pc (v : RunState) : (s.setRun v).pc = s.pc := rfl
@[simp] theorem setRun_mem (v : RunState) : (s.setRun v).mem = s.mem := rfl
@[simp] theorem setRun_stack (v : RunState) : (s.setRun v).stack = s.stack := rfl
@[simp] theorem setRun_sp (v : RunState) : (s.setRun v).sp = s.sp := rfl
@[simp] theorem setRun_run (v : RunState) : (s.setRun v).run = v := rfl
@[simp] theorem setRun_fault (v : RunState) : (s.setRun v).fault = s.fault := rfl

@[simp] theorem writeMem_x (a : Addr) (b : Byte) : (s.writeMem a b).x = s.x := rfl
@[simp] theorem writeMem_pc (a : Addr) (b : Byte) : (s.writeMem a b).pc = s.pc := rfl
@[simp] theorem writeMem_mem (a : Addr) (b : Byte) : (s.writeMem a b).mem = s.mem.write a b := rfl
@[simp] theorem writeMem_stack (a : Addr) (b : Byte) : (s.writeMem a b).stack = s.stack := rfl
@[simp] theorem writeMem_sp (a : Addr) (b : Byte) : (s.writeMem a b).sp = s.sp := rfl
@[simp] theorem writeMem_run (a : Addr) (b : Byte) : (s.writeMem a b).run = s.run := rfl
@[simp] theorem writeMem_fault (a : Addr) (b : Byte) : (s.writeMem a b).fault = s.fault := rfl

@[simp] theorem raise_x (e : Fault) : (s.raise e).x = s.x := rfl
@[simp] theorem raise_pc (e : Fault) : (s.raise e).pc = s.pc := rfl
@[simp] theorem raise_mem (e : Fault) : (s.raise e).mem = s.mem := rfl
@[simp] theorem raise_stack (e : Fault) : (s.raise e).stack = s.stack := rfl
@[simp] theorem raise_sp (e : Fault) : (s.raise e).sp = s.sp := rfl
@[simp] theorem raise_run (e : Fault) : (s.raise e).run = .faulted := rfl
@[simp] theorem raise_fault (e : Fault) : (s.raise e).fault = some e := rfl

@[simp] theorem writeFlag_x (v : Byte) : (s.writeFlag v).x = s.x.set Config.flagReg v := rfl
@[simp] theorem writeFlag_pc (v : Byte) : (s.writeFlag v).pc = s.pc := rfl
@[simp] theorem writeFlag_mem (v : Byte) : (s.writeFlag v).mem = s.mem := rfl
@[simp] theorem writeFlag_stack (v : Byte) : (s.writeFlag v).stack = s.stack := rfl
@[simp] theorem writeFlag_sp (v : Byte) : (s.writeFlag v).sp = s.sp := rfl
@[simp] theorem writeFlag_run (v : Byte) : (s.writeFlag v).run = s.run := rfl
@[simp] theorem writeFlag_fault (v : Byte) : (s.writeFlag v).fault = s.fault := rfl

theorem readReg_eq (i : RegIndex) : s.readReg i = s.x[i] := rfl

/-- The stack pointer is at most 16, by its type (R21). -/
theorem sp_le : s.sp.val ≤ 16 := Nat.le_of_lt_succ s.sp.isLt

/-- Two states with equal fields are equal. -/
theorem eq_of_fields {s t : State} (hx : s.x = t.x) (hpc : s.pc = t.pc) (hmem : s.mem = t.mem)
    (hstack : s.stack = t.stack) (hsp : s.sp = t.sp) (hrun : s.run = t.run) (hfault : s.fault = t.fault) : s = t := by
  cases s; cases t; simp_all

end Sys2Proof.Machine.State
end

