-- ==== Sys2Proof/Laws/Ops.lean ====
section
/-! SUPPORT. One lemma per shared operation that says everything it can do. -/

namespace Sys2Proof.Machine

/-- A successful push: the stack had room, one entry and `sp` change, nothing else (R95). -/
theorem State.push_some {s t : State} {v : Word} (h : s.push v = some t) :
    ∃ hsp : s.sp.val < Config.stackDepth,
      t = { s with stack := s.stack.set s.sp.val v, sp := ⟨s.sp.val + 1, Nat.succ_lt_succ hsp⟩ } := by
  unfold State.push at h
  split at h
  · exact ⟨‹_›, (Option.some.inj h).symm⟩
  · cases h

theorem State.push_of_room {s : State} (v : Word) (h : s.sp.val < Config.stackDepth) :
    s.push v = some { s with stack := s.stack.set s.sp.val v, sp := ⟨s.sp.val + 1, Nat.succ_lt_succ h⟩ } := by
  simp [State.push, h]

/-- A push is turned away exactly when the stack is full (R95). -/
theorem State.push_none {s : State} {v : Word} : s.push v = none ↔ s.sp.val = Config.stackDepth := by
  unfold State.push
  have := s.sp.isLt
  split <;> simp_all <;> omega

/-- A successful pop: the stack was not empty, only `sp` changes, and the value is the old top entry (R96). -/
theorem State.pop_some {s t : State} {v : Word} (h : s.pop = some (v, t)) :
    ∃ (_ : 0 < s.sp.val) (hix : s.sp.val - 1 < Config.stackDepth),
      v = s.stack[s.sp.val - 1] ∧
      t = { s with sp := ⟨s.sp.val - 1, Nat.lt_of_le_of_lt (Nat.sub_le _ _) s.sp.isLt⟩ } := by
  unfold State.pop at h
  split at h
  · rename_i hsp
    have hix : s.sp.val - 1 < Config.stackDepth := by
      have := s.sp.isLt
      omega
    simp only [Option.some.injEq, Prod.mk.injEq] at h
    exact ⟨hsp, hix, h.1.symm, h.2.symm⟩
  · cases h

theorem State.pop_of_live {s : State} (h : 0 < s.sp.val) (hix : s.sp.val - 1 < Config.stackDepth) :
    s.pop = some (s.stack[s.sp.val - 1],
      { s with sp := ⟨s.sp.val - 1, Nat.lt_of_le_of_lt (Nat.sub_le _ _) s.sp.isLt⟩ }) := by
  simp [State.pop, h]

/-- A pop is turned away exactly when the stack is empty (R96). -/
theorem State.pop_none {s : State} : s.pop = none ↔ s.sp.val = 0 := by
  unfold State.pop
  split
  · rename_i h
    exact iff_of_false nofun (Nat.ne_of_gt h)
  · rename_i h
    exact iff_of_true rfl (Nat.eq_zero_of_not_pos h)

/-- The fetch answers a word exactly when both bytes exist, and then it is the two bytes, high byte first (R35, R71). -/
theorem State.fetch_some {s : State} {w : Word} :
    s.fetch = some w ↔ ∃ h : s.pc.toNat + 1 < Config.memSize, w = fetchWord s.mem s.pc h := by
  unfold State.fetch
  split <;> simp_all [eq_comm]

theorem State.fetch_none {s : State} : s.fetch = none ↔ Config.memSize ≤ s.pc.toNat + 1 := by
  unfold State.fetch
  split <;> simp_all

/-- The advance of a fetched `pc` does not wrap (R18, R81). -/
theorem State.advancePc_toNat {s : State} (h : s.pc.toNat + 1 < Config.memSize) :
    s.advancePc.pc.toNat = s.pc.toNat + 2 := by
  have h2 : (2 : Word).toNat = 2 := rfl
  rw [advancePc_pc, BitVec.toNat_add, h2]
  simp only [Config.memSize] at h
  omega

/-- A target is the same number in the program counter (R54). -/
theorem targetAddress_toNat (nnn : Target) : (targetAddress nnn).toNat = nnn.toNat := by
  have h := nnn.isLt
  simp only [Config.addrField] at h
  simp only [targetAddress, BitVec.toNat_setWidth]
  omega

/-- The wrapped sum of two bytes is their sum as bit vectors (R107). -/
theorem wrapSum_add (a b : Byte) : wrapSum (a.toNat + b.toNat) = a + b := by
  apply BitVec.eq_of_toNat_eq
  simp [wrapSum]

/-- The flag is 0 or 1 (R12). -/
theorem carryFlag_cases (n : Nat) : (carryFlag n = 1 ∧ 255 < n) ∨ (carryFlag n = 0 ∧ n ≤ 255) := by
  unfold carryFlag
  split <;> simp_all

/-- A placed word is fetched back (R61). -/
theorem wordOfBytes_high_low (w : Word) : wordOfBytes (highByte w) (lowByte w) = w := by
  apply BitVec.eq_of_getLsbD_eq
  intro i hi
  simp only [wordOfBytes, highByte, lowByte, BitVec.getLsbD_append, BitVec.getLsbD_extractLsb']
  split
  · simp_all
  · rename_i h
    have h8 : 8 + (i - 8) = i := by omega
    have hlt : i - 8 < 8 := by omega
    simp [h8, hlt]

end Sys2Proof.Machine
end

