-- ==== Sys2Proof/Laws/PerInstr.lean ====
section
/-! SUPPORT. The statements made per instruction. Family `SelectsOwnRow`: the word of an instruction selects the row of
the opcode table that bears its name, and its operands are in the ranges the assembler form gives them (R55, R59, R62). -/

namespace Sys2Proof.Laws.SelectsOwnRow

/-- What the family says of an instruction. -/
def Statement (i : Instr) : Prop :=
  i.wellFormed = true ∧ i.toAsm.toInstr = some i ∧
  ∃ r ∈ opTable, r.mnemonic = i.mnemonic ∧ r.selects (encode i) = true

theorem halt : Statement .halt := by
  refine ⟨rfl, rfl, { mnemonic := "HALT", mask := 0xFFFF, pattern := 0x0000 }, ?_, rfl, ?_⟩ <;> decide

theorem ret : Statement .ret := by
  refine ⟨rfl, rfl, { mnemonic := "RET", mask := 0xFFFF, pattern := 0x00EE }, ?_, rfl, ?_⟩ <;> decide

theorem call (nnn : Target) : Statement (.call nnn) := by
  have h := nnn.isLt
  refine ⟨?_, ?_, { mnemonic := "CALL", mask := 0xF000, pattern := 0x2000 }, by decide, rfl, ?_⟩
  · simpa [Instr.wellFormed, Instr.toAsm, AsmInstr.wellFormed] using h
  · simp only [Instr.toAsm, AsmInstr.toInstr, h, if_true, BitVec.ofNat_toNat, BitVec.setWidth_eq]
  · simp only [OpRow.selects, encode, beq_iff_eq]
    ext i hi
    simp only [BitVec.getElem_and, BitVec.getElem_append]
    split
    · rename_i hlt
      have : i < 12 := hlt
      interval_cases i <;> simp
    · rename_i hlt
      have : ¬ i < 12 := hlt
      interval_cases i <;> first | omega | simp [BitVec.getElem_eq_testBit_toNat, Nat.testBit, Config.addrField]

theorem add (x y : RegIndex) : Statement (.add x y) := by
  refine ⟨?_, ?_, { mnemonic := "ADD", mask := 0xF00F, pattern := 0x8004 }, by decide, rfl, ?_⟩
  · simp [Instr.wellFormed, Instr.toAsm, AsmInstr.wellFormed]
  · simp [Instr.toAsm, AsmInstr.toInstr]
  · revert x y; decide

end Sys2Proof.Laws.SelectsOwnRow
end

