-- ==== Sys2Proof/Laws/Step.lean ====
section
/-! SUPPORT. What each meaning and the step can do, said once: later proofs cite these and do not unfold them. -/

namespace Sys2Proof.Machine

/-- CALL either pushes and jumps, or finds the stack full (R95). -/
theorem execCall_cases {nnn : Target} {s t : State} (h : execCall nnn s = .next t) :
    (∃ hsp : s.sp.val < Config.stackDepth,
      t = { s with stack := s.stack.set s.sp.val s.pc, sp := ⟨s.sp.val + 1, Nat.succ_lt_succ hsp⟩,
                   pc := targetAddress nnn }) ∨
    (s.sp.val = Config.stackDepth ∧ t = s.raise .stackOverflowError) := by
  unfold execCall at h
  split at h
  · rename_i s' hp
    obtain ⟨hsp, rfl⟩ := State.push_some hp
    exact .inl ⟨hsp, (Host.Outcome.next.inj h).symm⟩
  · exact .inr ⟨State.push_none.1 ‹_›, (Host.Outcome.next.inj h).symm⟩

/-- RET either pops and jumps, or finds the stack empty (R96). -/
theorem execRet_cases {s t : State} (h : execRet s = .next t) :
    (∃ (_ : 0 < s.sp.val) (hix : s.sp.val - 1 < Config.stackDepth),
      t = { s with sp := ⟨s.sp.val - 1, Nat.lt_of_le_of_lt (Nat.sub_le _ _) s.sp.isLt⟩,
                   pc := s.stack[s.sp.val - 1] }) ∨
    (s.sp.val = 0 ∧ t = s.raise .stackUnderflowError) := by
  unfold execRet at h
  split at h
  · rename_i v s' hp
    obtain ⟨hsp, hix, rfl, rfl⟩ := State.pop_some hp
    exact .inl ⟨hsp, hix, (Host.Outcome.next.inj h).symm⟩
  · exact .inr ⟨State.pop_none.1 ‹_›, (Host.Outcome.next.inj h).symm⟩

/-- A step exists only while the loop runs, and is then one pass of the loop (R80). -/
theorem step_next {s t : State} (h : step s = .next t) : s.run = .running ∧ cycle s = .next t := by
  unfold step at h
  split at h
  · cases h
  · exact ⟨‹_›, h⟩
  · cases h
  · unfold surfaceFault at h
    split at h <;> cases h

theorem step_of_running {s : State} (h : s.run = .running) : step s = cycle s := by
  simp [step, h]

/-- A pass of the loop is refused its fetch, or dispatches the word it fetched (R81). -/
theorem cycle_cases {s t : State} (h : cycle s = .next t) :
    (s.fetch = none ∧ t = s.raise .memoryBoundsError) ∨
    (∃ w, s.fetch = some w ∧ dispatchWord w s.advancePc = .next t) := by
  unfold cycle at h
  split at h
  · exact .inl ⟨‹_›, (Host.Outcome.next.inj h).symm⟩
  · exact .inr ⟨_, ‹_›, h⟩

/-- A dispatched word runs its instruction, or is fatal (R83, R85). -/
theorem dispatchWord_cases {w : Word} {s t : State} (h : dispatchWord w s = .next t) :
    (∃ i, decode w = .operation i ∧ exec i s = .next t) ∨
    (∃ v, decode w = .unimplemented v ∧ t = s.raise (.unimplementedOpcodeError v)) := by
  unfold dispatchWord at h
  split at h
  · exact .inl ⟨_, ‹_›, h⟩
  · exact .inr ⟨_, ‹_›, (Host.Outcome.next.inj h).symm⟩

end Sys2Proof.Machine
end

