-- ==== Sys2Proof/Tests/Slice0.lean ====
section
/-! SUPPORT. The model's own tests. Every expected result comes from the spec: its worked examples S1 to S7 and its
derived vectors (spec/95_test_vectors.md), or a word written out from the bit patterns of spec/30_encoding.md R55. Then,
for every statement with hypotheses, a concrete state and operands that meet them. -/

namespace Sys2Proof.Tests

open Sys2Proof Sys2Proof.Machine

/-! ### Helpers -/

/-- A running state at `pc` with `sp` live entries and the given memory, otherwise as after reset. -/
def atPc (pc : Word) (sp : Fin 17) (mem : Memory) : State :=
  { State.reset with pc := pc, sp := sp, mem := mem, run := .running }

/-- The outcome is a next state with the property. -/
def nextHas (o : Host.Outcome State Fault Refusal) (p : State → Bool) : Bool :=
  match o with
  | .next t => p t
  | .fault _ => false
  | .refused _ => false

/-- The outcome is the refusal. -/
def isRefused (o : Host.Outcome State Fault Refusal) (r : Refusal) : Bool :=
  match o with
  | .next _ => false
  | .fault _ => false
  | .refused q => q == r

/-- ADD 0, 1 over two register values. -/
def addState (a b : Byte) : State := (State.reset.writeReg 0 a).writeReg 1 b

/-! ### Well-formedness: an ill-formed term for each check, refused -/

theorem test_call_target_out_of_range_refused :
    (AsmInstr.call 4096).wellFormed = false ∧ (AsmInstr.call 4096).toInstr = none := by decide

theorem test_add_destination_out_of_range_refused :
    (AsmInstr.add 16 0).wellFormed = false ∧ (AsmInstr.add 16 0).toInstr = none := by decide

theorem test_add_source_out_of_range_refused :
    (AsmInstr.add 0 16).wellFormed = false ∧ (AsmInstr.add 0 16).toInstr = none := by decide

theorem test_largest_operands_accepted :
    (AsmInstr.call 4095).toInstr = some (.call 0xFFF) ∧ (AsmInstr.add 15 15).toInstr = some (.add 15 15) := by decide

/-! ### Decode: words written out bit by bit from R55 -/

theorem test_decode_halt : decode 0b0000_0000_0000_0000 = .operation .halt := by decide
theorem test_decode_ret : decode 0b0000_0000_1110_1110 = .operation .ret := by decide
theorem test_decode_call : decode 0b0010_0001_0000_0000 = .operation (.call 0x100) := by decide
theorem test_decode_add : decode 0b1000_0111_1010_0100 = .operation (.add 7 10) := by decide

/-- 95_test_vectors.md section 3: neighbours of RET and HALT. -/
theorem test_decode_unimplemented_c0 :
    [0x00E0, 0x00EF, 0x000E, 0x0001, 0x0EE0, 0x01EE, 0x0100].all (fun w => decode w == .unimplemented w) = true := by
  decide

/-- 95_test_vectors.md section 3: neighbours of ADD. -/
theorem test_decode_unimplemented_c8 :
    [0x8000, 0x8123, 0x8015, 0x801E, 0x8FF3, 0x9004, 0x7004, 0xA004].all (fun w => decode w == .unimplemented w) =
      true := by decide

/-- 95_test_vectors.md section 3: no other operation exists. -/
theorem test_decode_unimplemented_others :
    [0x1234, 0x1FFF, 0x3000, 0x6005, 0x7FFF, 0xEE00, 0xFFFF].all (fun w => decode w == .unimplemented w) = true := by
  decide

/-- R57: the rows of the table are pairwise disjoint. -/
theorem test_rows_disjoint : opTable.Pairwise (fun r q => r.disjoint q = true) := by decide

/-- S6: bytes `0x81`, `0x23` are the word `0x8123` with fields 8, 1, 2, 3 and `nnn = 0x123`. -/
theorem test_fetch_and_fields :
    (atPc 0 0 [(0, 0x81), (1, 0x23)]).fetch = some 0x8123 ∧
    fieldsOf 0x8123 = { c := 8, x := 1, y := 2, d := 3, nnn := 0x123 } := by decide

/-- Section 2: a fetch at the odd address 5, and at 4094, the last one allowed. -/
theorem test_fetch_odd_and_last :
    (atPc 5 0 [(4, 0x12), (5, 0x80), (6, 0x14), (7, 0x34)]).fetch = some 0x8014 ∧
    (atPc 4094 0 [(4094, 0xAB), (4095, 0xCD)]).fetch = some 0xABCD ∧ (atPc 4095 0 [(4095, 0xAB)]).fetch = none := by
  decide

/-- The host's numbering of a table word. -/
theorem test_decodeTableWord :
    decodeTableWord 16 0x2ABC = some (.call 0xABC) ∧ decodeTableWord 16 0x1234 = none := by decide

/-! ### The instructions: one step, vectors of sections 1, 4 and 5 -/

/-- S1 and S2. -/
theorem test_add_no_carry_and_carry :
    nextHas (step ((addState 5 10).withFetchWord 16 0x8014)) (fun t => t.x[0] == 15 && t.x[15] == 0 && t.pc == 2) ∧
    nextHas (step ((addState 250 10).withFetchWord 16 0x8014)) (fun t => t.x[0] == 4 && t.x[15] == 1) := by decide

/-- Section 4: ADD 15, 1 with `xF = 250`, `x1 = 10`, and ADD 2, 2 with `x2 = 200`. -/
theorem test_add_flag_destination_and_doubling :
    nextHas (execAdd 15 1 ((State.reset.writeReg 15 250).writeReg 1 10)) (fun t => t.x[15] == 1 && t.x[1] == 10) ∧
    nextHas (execAdd 2 2 (State.reset.writeReg 2 200)) (fun t => t.x[2] == 144 && t.x[15] == 1) := by decide

/-- Section 5, vectors 5 and 12. -/
theorem test_call_last_entry_and_last_address :
    nextHas (step (atPc 0x0F0 15 [(0xF0, 0x21)])) (fun t => t.stack[15] == 0x00F2 && t.sp == 16 && t.pc == 0x0100) ∧
    nextHas (step (atPc 0xFFE 1 [(0xFFE, 0x20), (0xFFF, 0x04)]))
      (fun t => t.stack[1] == 0x1000 && t.sp == 2 && t.pc == 0x0004) := by decide

/-- Section 5, vector 6. -/
theorem test_call_on_full_stack :
    nextHas (step (atPc 0x100 16 [(0x100, 0x21)]))
      (fun t => t.run == .faulted && t.fault == some .stackOverflowError && t.pc == 0x0102 && t.sp == 16 &&
        t.stack == State.reset.stack) := by decide

/-- Section 5, vector 14: the top entry, not entry 0. -/
theorem test_ret_takes_top_entry :
    nextHas (step { atPc 0x300 2 [(0x301, 0xEE)] with stack := (State.reset.stack.set 0 2).set 1 0x16 })
      (fun t => t.sp == 1 && t.pc == 0x0016 && t.stack[1] == 0x0016) := by decide

/-- Section 5, vector 8. -/
theorem test_ret_on_empty_stack :
    nextHas (step (atPc 0 0 [(1, 0xEE)]))
      (fun t => t.run == .faulted && t.fault == some .stackUnderflowError && t.pc == 2 && t.sp == 0) := by decide

/-- Section 5, vectors 16 and 17. -/
theorem test_halt_in_subroutine_and_at_last_address :
    nextHas (step (atPc 0x120 3 [])) (fun t => t.run == .halted && t.pc == 0x0122 && t.sp == 3) ∧
    nextHas (step (atPc 0xFFE 0 [])) (fun t => t.run == .halted && t.pc == 0x1000 && t.fault == none) := by decide

/-- Section 5, vectors 19 and 20. -/
theorem test_memory_bounds :
    nextHas (step (atPc 0xFFF 0 [])) (fun t => t.fault == some .memoryBoundsError && t.pc == 0x0FFF) ∧
    nextHas (step (atPc 0x1000 0 [])) (fun t => t.fault == some .memoryBoundsError && t.pc == 0x1000) := by decide

/-- S7: the word `0x1234` is fatal, carries itself and leaves the registers. -/
theorem test_unimplemented_word :
    nextHas (step ((addState 5 10).withFetchWord 16 0x1234))
      (fun t => t.run == .faulted && t.fault == some (.unimplementedOpcodeError 0x1234) && t.pc == 2 &&
        t.x == (addState 5 10).x) := by decide

/-- R120: the spec's own numerals for the four errors. -/
theorem test_fault_numerals :
    Fault.memoryBoundsError.code = 1 ∧ Fault.stackOverflowError.code = 2 ∧ Fault.stackUnderflowError.code = 3 ∧
    (Fault.unimplementedOpcodeError 0x1234).code = 4 := by decide

/-! ### Reset and host interface, vectors of section 6 -/

theorem test_host_write_register_15 :
    nextHas (hostWriteReg 15 77 State.reset) (fun s => nextHas (hostWriteReg 15 3 s) (fun t => t.x[15] == 3)) := by
  decide

theorem test_host_writes_out_of_range_refused :
    isRefused (hostWriteReg 16 0 State.reset) .hostOperandOutOfRange ∧
    isRefused (hostWriteMem 4096 0 State.reset) .hostOperandOutOfRange ∧
    isRefused (hostWriteReg 0 256 State.reset) .hostOperandOutOfRange := by decide

theorem test_host_refused_after_halt :
    isRefused (hostRun (State.reset.setRun .halted)) .notInPreload ∧
    isRefused (hostWriteReg 0 0 (State.reset.setRun .halted)) .notInPreload := by decide

/-- R29, last sentence: a run straight after reset halts at its first step with `pc = 2`; before HostRun no step is
taken. -/
theorem test_run_from_reset :
    isRefused (step State.reset) .loopNotInvoked ∧
    nextHas (hostRun State.reset) (fun s => nextHas (step s) (fun t => t.run == .halted && t.pc == 2)) := by decide

/-- Writing the reset contents over a byte removes its entry: equal memories are equal lists. -/
theorem test_memory_canonical :
    (Memory.write (Memory.write [] 7 1) 3 2) = [(3, 2), (7, 1)] ∧ (Memory.write [(3, 2), (7, 1)] 3 0) = [(7, 1)] := by
  decide

/-! ### Witnesses: the hypotheses of every statement are met -/

/-- Fetch at the last allowed address, and PlacedWordIsFetched there. -/
theorem witness_FetchIsBigEndian : (atPc 4094 0 []).pc.toNat + 1 < 4096 := by decide

theorem witness_PlacedWordIsFetched : (atPc 4094 0 []).pc.toNat + 1 < 4096 ∧ (atPc 4094 0 []).mem.wf := by decide

theorem witness_DecodeFollowsOpcodeTable :
    (∃ r ∈ opTable, r.selects 0x8FF4 = true) ∧ decode 0x2FFF = .operation (.call 0xFFF) ∧
    (∀ r ∈ opTable, r.selects 0x8FF3 = false) := by decide

theorem witness_DecodeMapOfAllWords :
    (0x0000 : Word).toNat = 0 ∧ (0x00EE : Word).toNat = 0x00EE ∧
    (0x2FFF : Word).toNat = 0x2000 + (0xFFF : Target).toNat ∧
    (0x8FF4 : Word).toNat = 0x8004 + 256 * (15 : RegIndex).val + 16 * (15 : RegIndex).val ∧
    ((0x8FF3 : Word).toNat ≠ 0 ∧ (0x8FF3 : Word).toNat ≠ 0x00EE ∧ (0x8FF3 : Word).toNat / 4096 ≠ 2 ∧
      ¬((0x8FF3 : Word).toNat / 4096 = 8 ∧ (0x8FF3 : Word).toNat % 16 = 4)) := by decide

theorem witness_EncodeOfDecode : decode 0x8FF4 = .operation (.add 15 15) := by decide

theorem witness_AssemblerFormMatchesEncoding : (AsmInstr.call 4095).toInstr = some (.call 0xFFF) := by decide

/-- An ADD 0, 1 at 4094. -/
def addAtEnd : State := atPc 4094 0 [(4094, 0x80), (4095, 0x14)]

theorem witness_StepRunsDecodedInstr : addAtEnd.Fetches 0x8014 ∧ decode 0x8014 = .operation (.add 0 1) :=
  ⟨⟨rfl, by decide⟩, by decide⟩

theorem witness_FetchPastEndIsMemoryBoundsError :
    (atPc 4095 0 []).run = .running ∧ 4096 ≤ (atPc 4095 0 []).pc.toNat + 1 ∧
    (atPc 4096 0 []).run = .running ∧ 4096 ≤ (atPc 4096 0 []).pc.toNat + 1 := by decide

theorem witness_UnmatchedWordIsUnimplementedOpcodeError :
    (atPc 4094 0 [(4094, 0x12), (4095, 0x34)]).Fetches 0x1234 ∧ ∀ r ∈ opTable, r.selects 0x1234 = false :=
  ⟨⟨rfl, by decide⟩, by decide⟩

theorem witness_NoStepOutsideRunning :
    State.reset.run = .preload ∧ (State.reset.setRun .halted).run = .halted ∧
    (State.reset.raise .memoryBoundsError).run = .faulted ∧
    (State.reset.raise .memoryBoundsError).fault = some .memoryBoundsError := by decide

theorem witness_RunningStepAlwaysCompletes : addAtEnd.run = .running := rfl

/-- A step that answers a next state: the hypothesis of RegistersNeverSteerControl and of every statement about one
step. -/
theorem witness_step_next : ∃ t, step addAtEnd = .next t := ⟨_, rfl⟩

/-- The halted clause, and each of the four faulted ones: the conditions and the record hold together. -/
theorem witness_LeavesRunningByHaltOrFatalError :
    (∃ t, step (atPc 0 0 []) = .next t ∧ (atPc 0 0 []).fetch = some 0 ∧ t.run = .halted) ∧
    (∃ t, step (atPc 4095 0 []) = .next t ∧ (atPc 4095 0 []).fetch = none ∧ t.fault = some .memoryBoundsError) ∧
    (∃ t, step (atPc 0 16 [(0, 0x21)]) = .next t ∧ (atPc 0 16 [(0, 0x21)]).AboutToRun (.call 0x100) ∧
      (atPc 0 16 [(0, 0x21)]).sp.val = 16 ∧ t.fault = some .stackOverflowError) ∧
    (∃ t, step (atPc 0 0 [(1, 0xEE)]) = .next t ∧ (atPc 0 0 [(1, 0xEE)]).AboutToRun .ret ∧
      (atPc 0 0 [(1, 0xEE)]).sp.val = 0 ∧ t.fault = some .stackUnderflowError) ∧
    (∃ t, step (atPc 0 0 [(0, 0x12), (1, 0x34)]) = .next t ∧ (atPc 0 0 [(0, 0x12), (1, 0x34)]).Fetches 0x1234 ∧
      decode 0x1234 = .unimplemented 0x1234 ∧ t.fault = some (.unimplementedOpcodeError 0x1234)) :=
  ⟨⟨_, rfl, by decide, rfl⟩, ⟨_, rfl, by decide, rfl⟩, ⟨_, rfl, ⟨rfl, by decide⟩, rfl, rfl⟩,
    ⟨_, rfl, ⟨rfl, by decide⟩, rfl, rfl⟩, ⟨_, rfl, ⟨rfl, by decide⟩, by decide, rfl⟩⟩

/-- CALL `0xFFF` with `sp = 15`, RET with `sp = 16`, a refused fetch, and an ADD: the four clauses of R16. -/
theorem witness_PcAfterEachOutcome :
    ((∃ t, step (atPc 4095 0 []) = .next t) ∧ (atPc 4095 0 []).fetch = none) ∧
    ((∃ t, step (atPc 0 15 [(0, 0x2F), (1, 0xFF)]) = .next t) ∧
      (atPc 0 15 [(0, 0x2F), (1, 0xFF)]).AboutToRun (.call 0xFFF) ∧ (atPc 0 15 [(0, 0x2F), (1, 0xFF)]).sp.val < 16) ∧
    ((∃ t, step (atPc 0 16 [(1, 0xEE)]) = .next t) ∧ (atPc 0 16 [(1, 0xEE)]).AboutToRun .ret ∧
      (atPc 0 16 [(1, 0xEE)]).sp.val = (15 : Fin 16).val + 1) ∧
    (addAtEnd.Fetches 0x8014 ∧ ¬(0x8014 = encode .ret ∧ 0 < addAtEnd.sp.val) ∧
      ¬((∃ nnn, 0x8014 = encode (.call nnn)) ∧ addAtEnd.sp.val < 16)) := by
  refine ⟨⟨⟨_, rfl⟩, by decide⟩, ⟨⟨_, rfl⟩, ⟨rfl, by decide⟩, by decide⟩, ⟨⟨_, rfl⟩, ⟨rfl, by decide⟩, by decide⟩,
    ⟨rfl, by decide⟩, by decide, ?_⟩
  rintro ⟨⟨nnn, h⟩, -⟩
  have h' := congrArg BitVec.toNat h
  have hn := nnn.isLt
  rw [encode_toNat] at h'
  simp [Instr.toAsm, AsmInstr.word, Config.addrField] at h' hn
  omega

/-- The all-zero word at 0 is about to run no ADD, no CALL and no RET. -/
theorem witness_StepWritesOnlyWhatItsInstrMay :
    (∃ t, step (atPc 0 0 []) = .next t) ∧ (∀ x y, ¬(atPc 0 0 []).AboutToRun (.add x y)) ∧
    (∀ nnn, ¬(atPc 0 0 []).AboutToRun (.call nnn)) ∧ ¬(atPc 0 0 []).AboutToRun .ret := by
  have hf : (atPc 0 0 []).fetch = some 0 := by decide
  have hn : ∀ i : Instr, i.toAsm.word ≠ 0 → ¬(atPc 0 0 []).AboutToRun i := by
    intro i hi h
    have he : encode i = 0 := Option.some.inj (h.2.symm.trans hf)
    exact hi (by rw [← encode_toNat, he]; rfl)
  exact ⟨⟨_, rfl⟩, fun x y => hn _ (by simp [Instr.toAsm, AsmInstr.word]),
    fun nnn => hn _ (by simp [Instr.toAsm, AsmInstr.word]), hn _ (by decide)⟩

theorem witness_HaltStopsTheLoop : (atPc 4094 16 []).Fetches 0x0000 := ⟨rfl, by decide⟩

theorem witness_CallPushesAndJumps :
    (atPc 0 15 []).sp.val = (15 : Fin 16).val ∧ (atPc 0 0 []).sp.val = (0 : Fin 16).val := by decide

theorem witness_CallOnFullStackIsOverflow : (atPc 0 16 []).sp.val = 16 := rfl

theorem witness_RetPopsAndJumps :
    (atPc 0 16 []).sp.val = (15 : Fin 16).val + 1 ∧ (atPc 0 1 []).sp.val = (0 : Fin 16).val + 1 ∧
    (atPc 0 0 []).sp.val = 0 := by decide

theorem witness_AddWritesSumThenFlag : (0 : RegIndex) ≠ 15 ∧ (1 : RegIndex) ≠ 0 ∧ (1 : RegIndex) ≠ 15 := by decide

theorem witness_AddAliasedOperands : (14 : RegIndex) ≠ 15 := by decide

theorem witness_AddNeverFaults : addAtEnd.AboutToRun (.add 0 1) := ⟨rfl, by decide⟩

theorem witness_OrderInsideAStep :
    ((atPc 4094 15 [(4094, 0x21)]).AboutToRun (.call 0x100) ∧ (atPc 4094 15 [(4094, 0x21)]).sp.val = (15 : Fin 16).val) ∧
    (atPc 0 0 [(0, 0x8F), (1, 0xF4)]).AboutToRun (.add 15 15) :=
  ⟨⟨⟨rfl, by decide⟩, rfl⟩, rfl, by decide⟩

theorem witness_HandlersMakeNoMemoryAccess : ∃ t, exec (.call 0xFFF) addAtEnd = .next t := ⟨_, rfl⟩

/-- A RET at 0 with one live entry `v`. -/
def retTo (v : Word) : State := { atPc 0 1 [(1, 0xEE)] with stack := State.reset.stack.set 0 v }

theorem witness_EndOfMemoryFaultsOnNextStep :
    ((atPc 0 15 [(0, 0x2F), (1, 0xFF)]).AboutToRun (.call 0xFFF) ∧ (atPc 0 15 [(0, 0x2F), (1, 0xFF)]).sp.val < 16) ∧
    (addAtEnd.AboutToRun (.add 0 1) ∧ addAtEnd.pc.toNat = 4094) ∧
    ((atPc 4093 0 [(4093, 0x80), (4094, 0x14)]).AboutToRun (.add 0 1) ∧
      (atPc 4093 0 [(4093, 0x80), (4094, 0x14)]).pc.toNat = 4093) ∧
    ((retTo 4095).AboutToRun .ret ∧ (retTo 4095).sp.val = (0 : Fin 16).val + 1 ∧
      (retTo 4095).stack[(0 : Fin 16)].toNat = 4095) ∧
    ((retTo 4096).AboutToRun .ret ∧ (retTo 4096).sp.val = (0 : Fin 16).val + 1 ∧
      (retTo 4096).stack[(0 : Fin 16)].toNat = 4096) :=
  ⟨⟨⟨rfl, by decide⟩, by decide⟩, ⟨⟨rfl, by decide⟩, by decide⟩, ⟨⟨rfl, by decide⟩, by decide⟩,
    ⟨⟨rfl, by decide⟩, rfl, by decide⟩, ⟨⟨rfl, by decide⟩, rfl, by decide⟩⟩

theorem witness_UnfetchedBytesAreInert :
    ({ addAtEnd with mem := [(7, 9), (4094, 0x80), (4095, 0x14)] } : State).fetch = addAtEnd.fetch ∧
    ∃ t, step addAtEnd = .next t := ⟨by decide, _, rfl⟩

/-- A running state with one live link that meets the invariant: CALL `0x100` from reset has been taken. -/
def called : State :=
  { atPc 0x100 1 [(0, 0x21), (0x101, 0xEE)] with stack := State.reset.stack.set 0 2 }

theorem called_inv : called.Inv where
  memWf := by decide
  pcRange := by decide
  liveEntries := by decide
  faultRecord := by decide
  preloadFresh := nofun

theorem witness_StepKeepsInv : called.Inv ∧ ∃ t, step called = .next t := ⟨called_inv, _, rfl⟩

theorem witness_FaultIsWrittenOnce :
    (atPc 4095 0 []).Inv ∧ ∃ t, step (atPc 4095 0 []) = .next t ∧ t.fault = some .memoryBoundsError :=
  ⟨⟨by decide, by decide, by decide, by decide, nofun⟩, _, rfl, rfl⟩

theorem reset_inv : State.reset.Inv :=
  ⟨by decide, by decide, by decide, by decide, fun _ => by decide⟩

theorem witness_HostOperationsKeepInv :
    State.reset.Inv ∧ (∃ t, hostWriteReg 15 255 State.reset = .next t) ∧
    (∃ t, hostWriteMem 4095 255 State.reset = .next t) ∧ ∃ t, hostRun State.reset = .next t :=
  ⟨reset_inv, ⟨_, rfl⟩, ⟨_, rfl⟩, _, rfl⟩

/-- After the host has placed CALL `0x100` and RET and run them for one step, there is a live link. -/
theorem witness_ReachablePcAndLinksInRange : ∃ s, Reachable s ∧ (0 : Fin 16).val < s.sp.val ∧ s.pc.toNat = 0x100 := by
  have h1 := Reachable.reset.writeMem (a := 0) (v := 0x21) rfl
  have h2 := h1.writeMem (a := 0x101) (v := 0xEE) rfl
  exact ⟨_, (h2.run rfl).step rfl, by decide, by decide⟩

/-- Also the hypothesis of RunHaltsIffFaultFree. -/
theorem witness_EveryRunEnds : called.run = .running := rfl

theorem witness_EndedRunIsFinal : (runLoop 3 called).Terminal ∧ 3 ≤ 5 := ⟨.inl (by decide), by decide⟩

theorem witness_HostRunReturnsResult :
    (State.reset.setRun .halted).run ≠ .preload ∧ State.reset.Inv ∧ State.reset.run = .preload :=
  ⟨by decide, reset_inv, rfl⟩

/-- CALL `0x100` at 0, RET at `0x100`. -/
def callThenRet : State := atPc 0 0 [(0, 0x21), (0x101, 0xEE)]

theorem witness_MatchingRetReturnsAfterCall :
    StepPath (fun i => runLoop i callThenRet) 2 ∧ (runLoop 0 callThenRet).AboutToRun (.call 0x100) ∧
    (runLoop 0 callThenRet).sp.val = 0 ∧ (∀ i, 1 ≤ i → i ≤ 1 → 0 < (runLoop i callThenRet).sp.val) ∧
    (runLoop 1 callThenRet).AboutToRun .ret ∧ (runLoop 1 callThenRet).sp.val = 0 + 1 := by
  refine ⟨?_, ⟨rfl, by decide⟩, rfl, ?_, ⟨rfl, by decide⟩, rfl⟩
  · intro i hi
    match i, hi with
    | 0, _ => rfl
    | 1, _ => rfl
  · intro i h1 h2
    obtain rfl : i = 1 := by omega
    decide

/-- The state after one more CALL `0x000` at 0, which calls itself. -/
def nest (s : State) : State :=
  match s.push 2 with
  | some t => t.setPc 0
  | none => s

/-- A run of nested CALLs. -/
def nestPath : Nat → State
  | 0 => atPc 0 0 [(0, 0x20)]
  | i + 1 => nest (nestPath i)

theorem nestPath_fields (i : Nat) (h : i ≤ 16) :
    (nestPath i).run = .running ∧ (nestPath i).mem = [(0, 0x20)] ∧ (nestPath i).pc = 0 ∧ (nestPath i).sp.val = i := by
  induction i with
  | zero => exact ⟨rfl, rfl, rfl, rfl⟩
  | succ i ih =>
    obtain ⟨hr, hm, -, hs⟩ := ih (by omega)
    have hroom : (nestPath i).sp.val < Config.stackDepth := by rw [hs]; exact h
    simp only [nestPath, nest, State.push_of_room _ hroom]
    exact ⟨hr, hm, rfl, by simp [hs]⟩

theorem nestPath_fetch (i : Nat) (h : i ≤ 16) : (nestPath i).AboutToRun (.call 0) := by
  obtain ⟨hr, hm, hpc, -⟩ := nestPath_fields i h
  refine ⟨hr, State.fetch_some.2 ⟨by rw [hpc]; decide, ?_⟩⟩
  simp only [fetchWord, hm, hpc]
  rfl

theorem nestPath_step (i : Nat) (h : i < 16) : step (nestPath i) = .next (nestPath (i + 1)) := by
  obtain ⟨hr, hm, hpc, hs⟩ := nestPath_fields i (by omega)
  have hroom : (nestPath i).sp.val < Config.stackDepth := by rw [hs]; exact h
  have hd : decode (encode (.call 0)) = .operation (.call 0) := by decide
  have hp : (nestPath i).advancePc.pc = 2 := by rw [State.advancePc_pc, hpc]; decide
  rw [step_of_running hr]
  simp only [cycle, (nestPath_fetch i (by omega)).2, dispatchWord, hd, exec, execCall, hp,
    State.push_of_room (s := (nestPath i).advancePc) 2 hroom, nestPath, nest, State.push_of_room (s := nestPath i) 2 hroom]
  rfl

theorem witness_NestedCallsUpToSixteen :
    StepPath nestPath 16 ∧ (nestPath 0).sp.val = 0 ∧ (∀ i, i < 16 → ∃ nnn, (nestPath i).AboutToRun (.call nnn)) ∧
    (nestPath 16).AboutToRun (.call 0) :=
  ⟨nestPath_step, rfl, fun i hi => ⟨0, nestPath_fetch i (by omega)⟩, nestPath_fetch 16 le_rfl⟩

theorem witness_CanonicalMemoriesAreEqual :
    Memory.wf [(0, 1), (4095, 2)] ∧ ∀ a : Addr, Memory.read [(0, 1), (4095, 2)] a = Memory.read [(0, 1), (4095, 2)] a :=
  ⟨by decide, fun _ => rfl⟩

theorem witness_HostMemoryWritesCommute : Memory.wf [(0, 1)] ∧ (0 : Addr) ≠ 4095 := by decide

theorem witness_HostWriteRegWritesOneRegister : State.reset.run = .preload ∧ (14 : RegIndex) ≠ 15 := by decide

theorem witness_HostWriteMemWritesOneByte :
    State.reset.run = .preload ∧ State.reset.mem.wf ∧ (0 : Addr) ≠ 4095 := by decide

theorem witness_HostWritesRefusedOutsideTheirPhase :
    (State.reset.setRun .running).run ≠ .preload ∧ State.reset.run = .preload := by decide

theorem witness_HostReadsOnlyAfterTheEnd :
    (State.reset.setRun .halted).run = .halted ∧ hostReadReg 15 (State.reset.setRun .halted) = .ok 0 ∧
    hostReadFault (State.reset.raise .stackOverflowError) = .ok .stackOverflowError := ⟨rfl, rfl, rfl⟩

end Sys2Proof.Tests
end

section
/-! The decoder and the encoder are inverse to each other on the implemented words (R54, R55, R57). -/

namespace Sys2Proof

/-- The operand fields and the opcode of an encoded CALL (R55). -/
theorem fieldsOf_encode_call (nnn : Target) :
    (fieldsOf (encode (.call nnn))).c = 2 ∧ (fieldsOf (encode (.call nnn))).nnn = nnn := by
  obtain ⟨hc, -, -, -, hn⟩ := fieldsOf_toNat (encode (.call nnn))
  have hlt : nnn.toNat < 4096 := nnn.isLt
  simp only [encode_toNat, Instr.toAsm, AsmInstr.word] at hc hn
  exact ⟨BitVec.eq_of_toNat_eq (hc.trans (show _ = 2 by omega)), BitVec.eq_of_toNat_eq (hn.trans (by omega))⟩

/-- The operand fields and the opcode of an encoded ADD (R55). -/
theorem fieldsOf_encode_add (x y : RegIndex) :
    (fieldsOf (encode (.add x y))).c = 8 ∧ (fieldsOf (encode (.add x y))).d = 4 ∧
    (fieldsOf (encode (.add x y))).x.toFin = x ∧ (fieldsOf (encode (.add x y))).y.toFin = y := by
  obtain ⟨hc, hx, hy, hd, -⟩ := fieldsOf_toNat (encode (.add x y))
  have hxlt : x.val < 16 := x.isLt
  have hylt : y.val < 16 := y.isLt
  simp only [encode_toNat, Instr.toAsm, AsmInstr.word] at hc hx hy hd
  exact ⟨BitVec.eq_of_toNat_eq (hc.trans (show _ = 8 by omega)),
    BitVec.eq_of_toNat_eq (hd.trans (show _ = 4 by omega)),
    Fin.ext (hx.trans (by omega)), Fin.ext (hy.trans (by omega))⟩

/-- The decoder reads back the instruction an encoded word stands for. -/
@[simp] theorem decode_encode (i : Instr) : decode (encode i) = .operation i := by
  cases i with
  | halt => decide
  | ret => decide
  | call nnn =>
    obtain ⟨hc, hn⟩ := fieldsOf_encode_call nnn
    simp [decode, hc, hn]
  | add x y =>
    obtain ⟨hc, hd, hx, hy⟩ := fieldsOf_encode_add x y
    simp [decode, hc, hd, hx, hy]

/-- A decoded word is the encoding of its instruction: by the number of the word from its fields (R74). -/
theorem encode_of_decode {w : Word} {i : Instr} (h : decode w = .operation i) : encode i = w := by
  have hw := toNat_eq_of_fields w
  obtain ⟨-, -, -, -, hn⟩ := fieldsOf_toNat w
  apply BitVec.eq_of_toNat_eq
  rw [encode_toNat]
  simp only [decode] at h
  split at h
  · rename_i hf
    obtain ⟨hc, hx, hy, hd⟩ := hf
    cases h
    simpa [hc, hx, hy, hd, Instr.toAsm, AsmInstr.word] using hw.symm
  · split at h
    · rename_i hf
      obtain ⟨hc, hx, hy, hd⟩ := hf
      cases h
      simpa [hc, hx, hy, hd, Instr.toAsm, AsmInstr.word] using hw.symm
    · split at h
      · rename_i hc
        cases h
        have hc2 : (fieldsOf w).c.toNat = 2 := congrArg BitVec.toNat hc
        simp only [Instr.toAsm, AsmInstr.word]
        omega
      · split at h
        · rename_i hf
          obtain ⟨hc, hd⟩ := hf
          cases h
          have hc8 : (fieldsOf w).c.toNat = 8 := congrArg BitVec.toNat hc
          have hd4 : (fieldsOf w).d.toNat = 4 := congrArg BitVec.toNat hd
          simp only [Instr.toAsm, AsmInstr.word, BitVec.val_toFin]
          omega
        · cases h

/-- The unimplemented variant carries the word that was decoded (R57). -/
theorem decode_unimplemented {w v : Word} (h : decode w = .unimplemented v) : v = w := by
  simp only [decode] at h
  split at h
  · cases h
  · split at h
    · cases h
    · split at h
      · cases h
      · split at h
        · cases h
        · exact (Decoded.unimplemented.inj h).symm

end Sys2Proof
end

section
/-! The step as a relation with one rule per outcome: what every later proof about a step splits on. -/

namespace Sys2Proof.Machine

theorem execCall_of_room {s : State} (nnn : Target) (hsp : s.sp.val < Config.stackDepth) :
    execCall nnn s = .next { s with stack := s.stack.set s.sp.val s.pc, sp := ⟨s.sp.val + 1, Nat.succ_lt_succ hsp⟩,
                                    pc := targetAddress nnn } := by
  rw [execCall, State.push_of_room s.pc hsp]
  rfl

theorem execCall_of_full {s : State} (nnn : Target) (hsp : s.sp.val = Config.stackDepth) :
    execCall nnn s = .next (s.raise .stackOverflowError) := by
  rw [execCall, State.push_none.2 hsp]

theorem execRet_of_live {s : State} (hsp : 0 < s.sp.val) (hix : s.sp.val - 1 < Config.stackDepth) :
    execRet s = .next { s with sp := ⟨s.sp.val - 1, Nat.lt_of_le_of_lt (Nat.sub_le _ _) s.sp.isLt⟩,
                               pc := s.stack[s.sp.val - 1] } := by
  rw [execRet, State.pop_of_live hsp hix]
  rfl

theorem execRet_of_empty {s : State} (hsp : s.sp.val = 0) : execRet s = .next (s.raise .stackUnderflowError) := by
  rw [execRet, State.pop_none.2 hsp]

/-- The outcomes of a step from a running state, each with its condition and the whole state after it (R81, R120);
`step_eq_next_iff` ties the relation to `step`. -/
inductive Transition (s : State) : State → Prop where
  /-- The fetch is refused (R35, R121). -/
  | bounds (hf : s.fetch = none) : Transition s (s.raise .memoryBoundsError)
  /-- The fetched word matches no pattern (R85, R124). -/
  | unimplemented {w : Word} (hf : s.fetch = some w) (hd : decode w = .unimplemented w) :
      Transition s (s.advancePc.raise (.unimplementedOpcodeError w))
  /-- HALT (R84). -/
  | halt (hf : s.fetch = some (encode .halt)) : Transition s (s.advancePc.setRun .halted)
  /-- CALL with room (R95). -/
  | call {nnn : Target} (hf : s.fetch = some (encode (.call nnn))) (hsp : s.sp.val < Config.stackDepth) :
      Transition s { s with stack := s.stack.set s.sp.val s.advancePc.pc, sp := ⟨s.sp.val + 1, Nat.succ_lt_succ hsp⟩,
                            pc := targetAddress nnn }
  /-- CALL on a full stack (R95, R122). -/
  | overflow {nnn : Target} (hf : s.fetch = some (encode (.call nnn))) (hsp : s.sp.val = Config.stackDepth) :
      Transition s (s.advancePc.raise .stackOverflowError)
  /-- RET with a live entry (R96). -/
  | ret (hf : s.fetch = some (encode .ret)) (hsp : 0 < s.sp.val) (hix : s.sp.val - 1 < Config.stackDepth) :
      Transition s { s with sp := ⟨s.sp.val - 1, Nat.lt_of_le_of_lt (Nat.sub_le _ _) s.sp.isLt⟩,
                            pc := s.stack[s.sp.val - 1] }
  /-- RET on an empty stack (R96, R123). -/
  | underflow (hf : s.fetch = some (encode .ret)) (hsp : s.sp.val = 0) :
      Transition s (s.advancePc.raise .stackUnderflowError)
  /-- ADD (R105). -/
  | add {fx fy : RegIndex} (hf : s.fetch = some (encode (.add fx fy))) :
      Transition s ((s.advancePc.writeReg fx (wrapSum (registerOperand s fx + registerOperand s fy))).writeFlag
        (carryFlag (registerOperand s fx + registerOperand s fy)))

/-- A fetched instruction takes one of its own transitions. -/
theorem transition_of_exec {s t : State} {i : Instr} (hf : s.fetch = some (encode i))
    (h : exec i s.advancePc = .next t) : Transition s t := by
  cases i with
  | halt =>
    cases h
    exact .halt hf
  | ret =>
    obtain ⟨hsp, hix, rfl⟩ | ⟨hsp, rfl⟩ := execRet_cases h
    · exact .ret hf hsp hix
    · exact .underflow hf hsp
  | call nnn =>
    obtain ⟨hsp, rfl⟩ | ⟨hsp, rfl⟩ := execCall_cases h
    · exact .call hf hsp
    · exact .overflow hf hsp
  | add fx fy =>
    cases h
    exact .add hf

theorem transition_of_cycle {s t : State} (h : cycle s = .next t) : Transition s t := by
  obtain ⟨hf, rfl⟩ | ⟨w, hf, hw⟩ := cycle_cases h
  · exact .bounds hf
  · obtain ⟨i, hd, he⟩ | ⟨v, hd, rfl⟩ := dispatchWord_cases hw
    · exact transition_of_exec (encode_of_decode hd ▸ hf) he
    · obtain rfl := decode_unimplemented hd
      exact .unimplemented hf hd

theorem cycle_of_fetch_none {s : State} (h : s.fetch = none) : cycle s = .next (s.raise .memoryBoundsError) := by
  simp [cycle, h]

/-- A fetched instruction is executed on the state with the advanced `pc` (R82, R83). -/
theorem cycle_of_fetch_encode {s : State} {i : Instr} (h : s.fetch = some (encode i)) :
    cycle s = exec i s.advancePc := by
  simp [cycle, dispatchWord, h]

theorem cycle_of_transition {s t : State} (h : Transition s t) : cycle s = .next t := by
  cases h with
  | bounds hf => exact cycle_of_fetch_none hf
  | unimplemented hf hd => simp [cycle, dispatchWord, hf, hd]
  | halt hf => exact cycle_of_fetch_encode hf
  | call hf hsp => exact (cycle_of_fetch_encode hf).trans (execCall_of_room (s := s.advancePc) _ hsp)
  | overflow hf hsp => exact (cycle_of_fetch_encode hf).trans (execCall_of_full (s := s.advancePc) _ hsp)
  | ret hf hsp hix => exact (cycle_of_fetch_encode hf).trans (execRet_of_live (s := s.advancePc) hsp hix)
  | underflow hf hsp => exact (cycle_of_fetch_encode hf).trans (execRet_of_empty (s := s.advancePc) hsp)
  | add hf => exact cycle_of_fetch_encode hf

/-- The step answers a next state exactly along a transition of a running state (R80, R81). -/
theorem step_eq_next_iff {s t : State} : step s = .next t ↔ s.run = .running ∧ Transition s t := by
  constructor
  · intro h
    obtain ⟨hrun, hc⟩ := step_next h
    exact ⟨hrun, transition_of_cycle hc⟩
  · rintro ⟨hrun, htr⟩
    rw [step_of_running hrun, cycle_of_transition htr]

/-- A fetched `pc` is advanced without wrapping (R16). -/
theorem advancePc_toNat_of_fetch {s : State} {w : Word} (h : s.fetch = some w) :
    s.advancePc.pc.toNat = s.pc.toNat + 2 :=
  State.advancePc_toNat (State.fetch_some.1 h).1

/-! ### What a transition determines and what it leaves unchanged -/

/-- The outcome of a step is determined by the state before it. -/
theorem Transition.unique {s t u : State} (ht : Transition s t) (hu : Transition s u) : t = u :=
  Host.Outcome.next.inj ((cycle_of_transition ht).symm.trans (cycle_of_transition hu))

/-- No outcome writes memory (R31). -/
theorem Transition.mem_eq {s t : State} (h : Transition s t) : t.mem = s.mem := by
  cases h <;> rfl

/-- Only ADD writes registers (R13). -/
theorem Transition.x_eq {s t : State} (h : Transition s t) (hadd : ∀ fx fy, s.fetch ≠ some (encode (.add fx fy))) :
    t.x = s.x := by
  cases h with
  | add hf => exact absurd hf (hadd _ _)
  | _ => rfl

/-- Only CALL writes the stack (R22). -/
theorem Transition.stack_eq {s t : State} (h : Transition s t) (hcall : ∀ nnn, s.fetch ≠ some (encode (.call nnn))) :
    t.stack = s.stack := by
  cases h with
  | call hf => exact absurd hf (hcall _)
  | _ => rfl

/-- Only CALL and RET write `sp` (R26). -/
theorem Transition.sp_eq {s t : State} (h : Transition s t) (hcall : ∀ nnn, s.fetch ≠ some (encode (.call nnn)))
    (hret : s.fetch ≠ some (encode .ret)) : t.sp = s.sp := by
  cases h with
  | call hf => exact absurd hf (hcall _)
  | ret hf => exact absurd hf hret
  | _ => rfl

/-- A fetched word that is neither a CALL with room nor a RET with a live entry leaves `pc + 2` (R16). -/
theorem Transition.pc_eq_advanced {s t : State} (h : Transition s t) {w : Word} (hw : s.fetch = some w)
    (hcall : ¬((∃ nnn, w = encode (.call nnn)) ∧ s.sp.val < 16)) (hret : ¬(w = encode .ret ∧ 0 < s.sp.val)) :
    t.pc = s.advancePc.pc := by
  cases h with
  | bounds hf => exact absurd (hw.symm.trans hf) nofun
  | call hf hsp => exact absurd ⟨⟨_, Option.some.inj (hw.symm.trans hf)⟩, hsp⟩ hcall
  | ret hf hsp => exact absurd ⟨Option.some.inj (hw.symm.trans hf), hsp⟩ hret
  | _ => rfl

/-- The same outcome over any other registers, up to registers (R13, R19). -/
theorem Transition.with_registers {s t : State} (h : Transition s t) (regs : Vector Byte 16) :
    ∃ regs', Transition { s with x := regs } { t with x := regs' } := by
  cases h with
  | bounds hf => exact ⟨regs, .bounds hf⟩
  | unimplemented hf hd => exact ⟨regs, .unimplemented hf hd⟩
  | halt hf => exact ⟨regs, .halt hf⟩
  | call hf hsp => exact ⟨regs, .call (s := { s with x := regs }) hf hsp⟩
  | overflow hf hsp => exact ⟨regs, .overflow hf hsp⟩
  | ret hf hsp hix => exact ⟨regs, .ret (s := { s with x := regs }) hf hsp hix⟩
  | underflow hf hsp => exact ⟨regs, .underflow hf hsp⟩
  | add hf => exact ⟨_, .add hf⟩

theorem step_mem_eq {s t : State} (h : step s = .next t) : t.mem = s.mem :=
  (step_eq_next_iff.1 h).2.mem_eq

end Sys2Proof.Machine
end

section
/-! The run loop and the host operations, by what a step or an operation answers. -/

namespace Sys2Proof.Machine

/-! ### The end of a run -/

theorem step_of_faulted {s : State} {e : Fault} (hrun : s.run = .faulted) (hfault : s.fault = some e) :
    step s = .fault e := by
  simp [step, surfaceFault, hrun, hfault]

theorem hostReadFault_of_faulted {s : State} {e : Fault} (hrun : s.run = .faulted) (hfault : s.fault = some e) :
    hostReadFault s = .ok e := by
  simp [hostReadFault, hrun, hfault]

/-! ### The run loop -/

theorem runLoop_succ_of_step {s t : State} (fuel : Nat) (h : step s = .next t) :
    runLoop (fuel + 1) s = runLoop fuel t := by
  simp [runLoop, (step_next h).1, h]

theorem runLoop_of_no_step {s : State} (fuel : Nat) (h : ∀ t, step s ≠ .next t) : runLoop fuel s = s := by
  cases fuel with
  | zero => rfl
  | succ fuel =>
    unfold runLoop
    split
    · split
      · exact absurd ‹_› (h _)
      · rfl
      · rfl
    all_goals rfl

/-- What every step keeps, a run keeps. -/
theorem runLoop_induction {P : State → Prop} (hstep : ∀ s t, P s → step s = .next t → P t) (fuel : Nat) {s : State}
    (hs : P s) : P (runLoop fuel s) := by
  induction fuel generalizing s with
  | zero => exact hs
  | succ fuel ih =>
    by_cases hex : ∃ t, step s = .next t
    · obtain ⟨t, ht⟩ := hex
      rw [runLoop_succ_of_step fuel ht]
      exact ih (hstep s t hs ht)
    · rw [runLoop_of_no_step _ (not_exists.1 hex)]
      exact hs

/-! ### The host operations -/

theorem hostWriteReg_next {i v : Nat} {s t : State} (h : hostWriteReg i v s = .next t) :
    s.run = .preload ∧ ∃ hiv : i < Config.numRegs ∧ v < 256, t = s.writeReg ⟨i, hiv.1⟩ (BitVec.ofNat 8 v) := by
  unfold hostWriteReg at h
  split at h
  · split at h
    · exact ⟨‹_›, ‹_›, (Host.Outcome.next.inj h).symm⟩
    · cases h
  · cases h

theorem hostWriteMem_next {a v : Nat} {s t : State} (h : hostWriteMem a v s = .next t) :
    s.run = .preload ∧ ∃ hav : a < Config.memSize ∧ v < 256, t = s.writeMem ⟨a, hav.1⟩ (BitVec.ofNat 8 v) := by
  unfold hostWriteMem at h
  split at h
  · split at h
    · exact ⟨‹_›, ‹_›, (Host.Outcome.next.inj h).symm⟩
    · cases h
  · cases h

theorem hostRun_next {s t : State} (h : hostRun s = .next t) : s.run = .preload ∧ t = s.setRun .running := by
  unfold hostRun at h
  split at h
  · exact ⟨‹_›, (Host.Outcome.next.inj h).symm⟩
  · cases h

end Sys2Proof.Machine
end

section
/-! The invariant: one rule per operation of the state, then every step, host operation and reachable state. -/

namespace Sys2Proof.Machine

namespace State.Inv

variable {s t : State}

/-- The clause on `Preload` says nothing of a state that has left it. -/
theorem of_not_preload (hrun : s.run ≠ .preload) (hmem : s.mem.wf) (hpc : s.pc.toNat ≤ Config.memSize)
    (hlive : ∀ i : Fin Config.stackDepth, i.val < s.sp.val →
      2 ≤ s.stack[i].toNat ∧ s.stack[i].toNat ≤ Config.memSize)
    (hfault : s.run = .faulted ↔ s.fault ≠ none) : s.Inv :=
  ⟨hmem, hpc, hlive, hfault, fun h => absurd h hrun⟩

/-- No record before a fatal error (R25). -/
theorem fault_eq_none (hs : s.Inv) (hrun : s.run ≠ .faulted) : s.fault = none :=
  not_not.1 fun h => hrun (hs.faultRecord.2 h)

theorem raise (hs : s.Inv) (e : Fault) : (s.raise e).Inv :=
  of_not_preload nofun hs.memWf hs.pcRange hs.liveEntries (by simp)

theorem setPc (hs : s.Inv) (hrun : s.run = .running) {v : Word} (hv : v.toNat ≤ Config.memSize) : (s.setPc v).Inv :=
  of_not_preload (by simp [hrun]) hs.memWf hv hs.liveEntries hs.faultRecord

/-- The `pc` advanced past a fetched word is at most 4096 (R18). -/
theorem advancePc (hs : s.Inv) (hrun : s.run = .running) {w : Word} (hf : s.fetch = some w) : s.advancePc.Inv := by
  refine hs.setPc hrun (advancePc_toNat_of_fetch hf ▸ ?_)
  obtain ⟨hpc, -⟩ := State.fetch_some.1 hf
  exact hpc

/-- The loop starts or halts: no record is written. -/
theorem setRun (hs : s.Inv) {v : RunState} (hrun : s.run ≠ .faulted) (hf : v ≠ .faulted) (hp : v ≠ .preload) :
    (s.setRun v).Inv :=
  of_not_preload hp hs.memWf hs.pcRange hs.liveEntries (by simp [hf, hs.fault_eq_none hrun])

theorem writeReg (hs : s.Inv) (i : RegIndex) (v : Byte) : (s.writeReg i v).Inv :=
  ⟨hs.memWf, hs.pcRange, hs.liveEntries, hs.faultRecord, hs.preloadFresh⟩

theorem writeMem (hs : s.Inv) (a : Addr) (b : Byte) : (s.writeMem a b).Inv :=
  ⟨Memory.write_wf s.mem a b hs.memWf, hs.pcRange, hs.liveEntries, hs.faultRecord, hs.preloadFresh⟩

/-- A pushed link in range joins the live entries (R22). -/
theorem push (hs : s.Inv) (hrun : s.run = .running) {v : Word} (hlo : 2 ≤ v.toNat) (hhi : v.toNat ≤ Config.memSize)
    (h : s.push v = some t) : t.Inv := by
  obtain ⟨hsp, rfl⟩ := State.push_some h
  refine of_not_preload (by simp [hrun]) hs.memWf hs.pcRange (fun i hi => ?_) hs.faultRecord
  by_cases hisp : s.sp.val = i.val
  · simp [hisp, hlo, hhi]
  · have hlive : i.val < s.sp.val := by
      simp only at hi
      omega
    simpa [hisp] using hs.liveEntries i hlive

/-- The popped entry was live, hence in range, and the entries below it stay live (R22). -/
theorem pop (hs : s.Inv) (hrun : s.run = .running) {v : Word} (h : s.pop = some (v, t)) :
    t.Inv ∧ v.toNat ≤ Config.memSize := by
  obtain ⟨hsp, hix, rfl, rfl⟩ := State.pop_some h
  refine ⟨of_not_preload (by simp [hrun]) hs.memWf hs.pcRange (fun i hi => hs.liveEntries i ?_) hs.faultRecord, ?_⟩
  · simp only at hi
    omega
  · obtain ⟨-, hhi⟩ := hs.liveEntries ⟨s.sp.val - 1, hix⟩ (Nat.sub_lt hsp one_pos)
    exact hhi

end State.Inv

/-! ### Steps and host operations -/

/-- A step keeps the invariant: each outcome is made of operations that do. -/
theorem Transition.inv {s t : State} (h : Transition s t) (hs : s.Inv) (hrun : s.run = .running) : t.Inv := by
  cases h with
  | bounds hf => exact hs.raise _
  | unimplemented hf hd => exact (hs.advancePc hrun hf).raise _
  | halt hf => exact (hs.advancePc hrun hf).setRun (by simp [hrun]) nofun nofun
  | @call nnn hf hsp =>
    have ha := hs.advancePc hrun hf
    have hlink := advancePc_toNat_of_fetch hf
    have hlt : nnn.toNat < 4096 := nnn.isLt
    have hpushed := ha.push hrun (by omega) ha.pcRange (State.push_of_room (s := s.advancePc) s.advancePc.pc hsp)
    exact hpushed.setPc hrun ((targetAddress_toNat nnn).trans_le hlt.le)
  | overflow hf hsp => exact (hs.advancePc hrun hf).raise _
  | ret hf hsp hix =>
    obtain ⟨hpopped, htop⟩ := (hs.advancePc hrun hf).pop hrun (State.pop_of_live (s := s.advancePc) hsp hix)
    exact hpopped.setPc hrun htop
  | underflow hf hsp => exact (hs.advancePc hrun hf).raise _
  | add hf => exact ((hs.advancePc hrun hf).writeReg _ _).writeReg _ _

/-- A step keeps the invariant (R18, R22, R25). -/
theorem State.Inv.step {s t : State} (hs : s.Inv) (h : Machine.step s = .next t) : t.Inv := by
  obtain ⟨hrun, htr⟩ := step_eq_next_iff.1 h
  exact htr.inv hs hrun

/-- HostWriteReg keeps the invariant (R153). -/
theorem State.Inv.hostWriteReg {s t : State} {i v : Nat} (hs : s.Inv) (h : Machine.hostWriteReg i v s = .next t) :
    t.Inv := by
  obtain ⟨-, -, rfl⟩ := hostWriteReg_next h
  exact hs.writeReg _ _

/-- HostWriteMem keeps the invariant (R153). -/
theorem State.Inv.hostWriteMem {s t : State} {a v : Nat} (hs : s.Inv) (h : Machine.hostWriteMem a v s = .next t) :
    t.Inv := by
  obtain ⟨-, -, rfl⟩ := hostWriteMem_next h
  exact hs.writeMem _ _

/-- HostRun keeps the invariant (R154). -/
theorem State.Inv.hostRun {s t : State} (hs : s.Inv) (h : Machine.hostRun s = .next t) : t.Inv := by
  obtain ⟨hrun, rfl⟩ := hostRun_next h
  exact hs.setRun (by simp [hrun]) nofun nofun

/-! ### Reset and reachability -/

@[simp] theorem State.reset_x_get (i : RegIndex) : State.reset.x[i] = 0 := by
  simp [State.reset]

@[simp] theorem State.reset_stack_get (i : Fin Config.stackDepth) : State.reset.stack[i] = 0 := by
  simp [State.reset]

theorem State.Inv.reset : State.reset.Inv where
  memWf := Memory.nil_wf
  pcRange := Nat.zero_le _
  liveEntries _ hi := absurd hi (Nat.not_lt_zero _)
  faultRecord := iff_of_false nofun (not_not.2 rfl)
  preloadFresh _ := ⟨rfl, rfl, State.reset_stack_get⟩

end Sys2Proof.Machine

namespace Sys2Proof

open Sys2Proof.Machine

/-- Every state the hardware can be in meets the invariant. -/
theorem Reachable.inv {s : State} (h : Reachable s) : s.Inv := by
  induction h with
  | reset => exact State.Inv.reset
  | writeReg _ hw hs => exact hs.hostWriteReg hw
  | writeMem _ hw hs => exact hs.hostWriteMem hw
  | run _ hr hs => exact hs.hostRun hr
  | step _ hst hs => exact hs.step hst

end Sys2Proof
end

section
/-! Canonical memories are determined by what they read (R23). -/

namespace Sys2Proof.Machine.Memory

/-- A canonical memory lists exactly the bytes that differ from the reset contents. -/
theorem mem_iff_lookup {m : Memory} (hm : m.wf) (c : Host.Cell) : c ∈ m ↔ m.lookup c.1 = c.2 ∧ c.2 ≠ 0 := by
  obtain ⟨a, b⟩ := c
  induction m with
  | nil =>
    simp only [List.not_mem_nil, lookup_nil, false_iff]
    rintro ⟨h, hne⟩
    exact hne h.symm
  | cons d rest ih =>
    obtain ⟨k, v⟩ := d
    have hlt := head_lt hm
    have hv : v ≠ 0 := (hm.2 (k, v) (by simp)).2
    by_cases hak : a = k
    · subst hak
      have hnot : (a, b) ∉ rest := fun h => Nat.lt_irrefl a (hlt _ h)
      simp only [List.mem_cons, hnot, or_false, lookup_cons, if_true, Prod.mk.injEq, true_and]
      exact ⟨fun h => ⟨h.symm, h ▸ hv⟩, fun h => h.1.symm⟩
    · simp [hak, ih (tail_wf hm)]

/-- A canonical memory reads as the reset contents past its last address. -/
theorem lookup_out_of_range {m : Memory} (hm : m.wf) {a : Nat} (ha : Config.memSize ≤ a) : m.lookup a = 0 :=
  lookup_eq_zero_of_unlisted m a fun c hc => by
    have := (hm.2 c hc).1
    omega

theorem lookup_ext {m n : Memory} (hm : m.wf) (hn : n.wf) (h : ∀ a : Addr, m.read a = n.read a) (a : Nat) :
    m.lookup a = n.lookup a := by
  by_cases ha : a < Config.memSize
  · exact h ⟨a, ha⟩
  · rw [lookup_out_of_range hm (not_lt.1 ha), lookup_out_of_range hn (not_lt.1 ha)]

/-- No address is listed twice. -/
theorem nodup {m : Memory} (hm : m.wf) : m.Nodup :=
  hm.1.imp fun hlt heq => Nat.ne_of_lt hlt (congrArg Prod.fst heq)

/-- Canonical memories are determined by their reads: the same entries, in the same order. -/
theorem eq_of_read_eq {m n : Memory} (hm : m.wf) (hn : n.wf) (h : ∀ a : Addr, m.read a = n.read a) : m = n := by
  have hperm : m.Perm n := (List.perm_ext_iff_of_nodup (nodup hm) (nodup hn)).2 fun c => by
    rw [mem_iff_lookup hm, mem_iff_lookup hn, lookup_ext hm hn h]
  exact hperm.eq_of_pairwise (fun c d _ _ hcd hdc => absurd hcd (Nat.lt_asymm hdc)) hm.1 hn.1

end Sys2Proof.Machine.Memory
end

section
/-! The statements on the state, settled. -/

namespace Sys2Proof.Proofs

open Sys2Proof Sys2Proof.Machine

/-- Settles O36: each transition is made of operations that keep the invariant. -/
theorem stepKeepsInv : Obligations.StepKeepsInv :=
  fun _ _ hs h => hs.step h

/-- Settles O21: the transition taken is the one whose condition holds. -/
theorem pcAfterEachOutcome : Obligations.PcAfterEachOutcome := by
  intro s t h
  obtain ⟨-, htr⟩ := step_eq_next_iff.1 h
  refine ⟨fun hf => ?_, fun nnn hcall hsp => ?_, fun hret i hi => ?_, fun w hw hcall hret => ?_⟩
  · rw [htr.unique (.bounds hf)]
    rfl
  · obtain ⟨-, hf⟩ := hcall
    rw [htr.unique (.call hf hsp)]
    exact targetAddress_toNat nnn
  · obtain ⟨-, hf⟩ := hret
    have htop : s.sp.val - 1 = i.val := by omega
    rw [htr.unique (.ret hf (by omega) (htop ▸ i.isLt))]
    simp [htop]
  · obtain ⟨-, hf⟩ := hw
    rw [htr.pc_eq_advanced hf hcall hret, advancePc_toNat_of_fetch hf]

/-- Settles O22: the frame of each transition. -/
theorem stepWritesOnlyWhatItsInstrMay : Obligations.StepWritesOnlyWhatItsInstrMay := by
  intro s t h
  obtain ⟨hrun, htr⟩ := step_eq_next_iff.1 h
  refine ⟨fun a => by rw [htr.mem_eq], htr.mem_eq, fun hadd => ?_, fun hcall => ?_, fun hcall hret => ?_⟩
  · exact htr.x_eq fun fx fy hf => hadd fx fy ⟨hrun, hf⟩
  · exact htr.stack_eq fun nnn hf => hcall nnn ⟨hrun, hf⟩
  · exact htr.sp_eq (fun nnn hf => hcall nnn ⟨hrun, hf⟩) fun hf => hret ⟨hrun, hf⟩

/-- Settles O33: no condition of a transition, and no field it writes but the registers, depends on a register. -/
theorem registersNeverSteerControl : Obligations.RegistersNeverSteerControl := by
  intro s t regs h
  obtain ⟨hrun, htr⟩ := step_eq_next_iff.1 h
  obtain ⟨regs', htr'⟩ := htr.with_registers regs
  exact ⟨regs', step_eq_next_iff.2 ⟨hrun, htr'⟩⟩

/-- Settles O35: memory is kept by every step, hence by a run of any length. -/
theorem runKeepsMemory : Obligations.RunKeepsMemory :=
  fun fuel s => runLoop_induction (P := fun u => u.mem = s.mem) (fun _ _ hu h => (step_mem_eq h).trans hu) fuel rfl

/-- Settles O38: two clauses of the invariant, which every reachable state meets. -/
theorem reachablePcAndLinksInRange : Obligations.ReachablePcAndLinksInRange :=
  fun _ h => ⟨h.inv.pcRange, h.inv.liveEntries⟩

/-- Settles O39: by the invariant before and after the step, a record and `Faulted` go together. -/
theorem faultIsWrittenOnce : Obligations.FaultIsWrittenOnce := by
  intro s t hs h
  obtain ⟨hrun, -⟩ := step_next h
  refine ⟨hs.fault_eq_none (by simp [hrun]), fun e he => ?_⟩
  have hfaulted : t.run = .faulted := (hs.step h).faultRecord.2 (by simp [he])
  exact ⟨hfaulted, step_of_faulted hfaulted he, hostReadFault_of_faulted hfaulted he⟩

/-- Settles O46: both memories list the same bytes in rising order. -/
theorem canonicalMemoriesAreEqual : Obligations.CanonicalMemoriesAreEqual :=
  fun _ _ hm hn h => Memory.eq_of_read_eq hm hn h

/-- Settles O1. -/
theorem resetZeroesEverything : Obligations.ResetZeroesEverything :=
  ⟨State.reset_x_get, rfl, Memory.read_nil, State.reset_stack_get, rfl, rfl, rfl⟩

/-- Settles O2. -/
theorem resetMeetsInv : Obligations.ResetMeetsInv :=
  State.Inv.reset

end Sys2Proof.Proofs
end

section
/-! Memory as the step sees it: two bytes at `pc`, and nothing else of it (R31, R32, R36). -/

namespace Sys2Proof

/-- The byte at the lower address is the high half of the word (R32). -/
@[simp] theorem highByte_wordOfBytes (high low : Byte) : highByte (wordOfBytes high low) = high :=
  BitVec.extractLsb'_append_eq_left

/-- The byte at the higher address is the low half of the word (R32). -/
@[simp] theorem lowByte_wordOfBytes (high low : Byte) : lowByte (wordOfBytes high low) = low :=
  BitVec.extractLsb'_append_eq_right

/-- The word as R71 computes it. -/
theorem wordOfBytes_eq_shift_or (high low : Byte) :
    wordOfBytes high low = (high.setWidth 16 <<< 8) ||| low.setWidth 16 :=
  (BitVec.setWidth_eq _).symm.trans BitVec.setWidth_append_eq_shiftLeft_setWidth_or

namespace Machine

theorem State.fetch_of_inside {s : State} (h : s.pc.toNat + 1 < Config.memSize) :
    s.fetch = some (fetchWord s.mem s.pc h) :=
  State.fetch_some.2 ⟨h, rfl⟩

/-- A running step whose `pc` leaves no room for two bytes raises MemoryBoundsError (R35, R121). -/
theorem step_of_past_end {s : State} (hrun : s.run = .running) (hpc : 4096 ≤ s.pc.toNat + 1) :
    step s = .next (s.raise .memoryBoundsError) :=
  step_eq_next_iff.2 ⟨hrun, .bounds (State.fetch_none.2 hpc)⟩

/-! ### The same outcome over another memory -/

/-- A handler neither reads nor writes memory (R31, R45). -/
theorem exec_with_memory {i : Instr} {s t : State} (m : Memory) (h : exec i s = .next t) :
    exec i { s with mem := m } = .next { t with mem := m } := by
  cases i with
  | halt =>
    cases h
    rfl
  | ret =>
    obtain ⟨hsp, hix, rfl⟩ | ⟨hsp, rfl⟩ := execRet_cases h
    · exact execRet_of_live (s := { s with mem := m }) hsp hix
    · exact execRet_of_empty (s := { s with mem := m }) hsp
  | call nnn =>
    obtain ⟨hsp, rfl⟩ | ⟨hsp, rfl⟩ := execCall_cases h
    · exact execCall_of_room (s := { s with mem := m }) nnn hsp
    · exact execCall_of_full (s := { s with mem := m }) nnn hsp
  | add fx fy =>
    cases h
    rfl

/-- A transition depends on memory only through the fetched word (R31, R36). -/
theorem Transition.with_memory {s t : State} (h : Transition s t) (m : Memory)
    (hm : ({ s with mem := m } : State).fetch = s.fetch) : Transition { s with mem := m } { t with mem := m } := by
  obtain ⟨hf, rfl⟩ | ⟨w, hf, hw⟩ := cycle_cases (cycle_of_transition h)
  · exact .bounds (hm.trans hf)
  · obtain ⟨i, hd, he⟩ | ⟨v, hd, rfl⟩ := dispatchWord_cases hw
    · exact transition_of_exec (hm.trans (encode_of_decode hd ▸ hf)) (exec_with_memory m he)
    · obtain rfl := decode_unimplemented hd
      exact .unimplemented (hm.trans hf) hd

end Machine

end Sys2Proof
end

section
/-! The statements on memory, settled. -/

namespace Sys2Proof.Proofs

open Sys2Proof Sys2Proof.Machine

/-- Settles O31: by the outcomes of each handler, whose conditions name no byte of memory. -/
theorem handlersMakeNoMemoryAccess : Obligations.HandlersMakeNoMemoryAccess :=
  fun _ _ _ m h => exec_with_memory m h

/-- Settles O34: memory reaches a transition only through the fetched word. -/
theorem unfetchedBytesAreInert : Obligations.UnfetchedBytesAreInert := by
  intro s t m hm h
  obtain ⟨hrun, htr⟩ := step_eq_next_iff.1 h
  exact step_eq_next_iff.2 ⟨hrun, htr.with_memory m hm⟩

/-- Settles O32: each transition leaves a running state whose `pc` is 4095 or 4096, past the last fetch. -/
theorem endOfMemoryFaultsOnNextStep : Obligations.EndOfMemoryFaultsOnNextStep := by
  refine ⟨fun s hcall hsp => ?_, fun s fx fy hadd hpc => ?_, fun s i hret hsp htop => ?_⟩
  · obtain ⟨hrun, hf⟩ := hcall
    have hend : 4096 ≤ (targetAddress 0xFFF).toNat + 1 := by decide
    exact ⟨_, step_eq_next_iff.2 ⟨hrun, .call hf hsp⟩, hrun, rfl, step_of_past_end hrun hend⟩
  · obtain ⟨hrun, hf⟩ := hadd
    have hadv := advancePc_toNat_of_fetch hf
    have hend : 4096 ≤ s.advancePc.pc.toNat + 1 := by omega
    exact ⟨_, step_eq_next_iff.2 ⟨hrun, .add hf⟩, hrun, hadv, step_of_past_end hrun hend⟩
  · obtain ⟨hrun, hf⟩ := hret
    have hix : s.sp.val - 1 = i.val := by omega
    have hend : 4096 ≤ s.stack[i].toNat + 1 := by omega
    have hpc : s.stack[s.sp.val - 1]'(hix ▸ i.isLt) = s.stack[i] := by simp [hix]
    exact ⟨_, step_eq_next_iff.2 ⟨hrun, .ret hf (by omega) (hix ▸ i.isLt)⟩, hrun, hpc,
      step_of_past_end hrun (hpc ▸ hend)⟩

/-- Settles O3: the fetched word is put together from the two bytes at `pc`, high byte first. -/
theorem fetchIsBigEndian : Obligations.FetchIsBigEndian :=
  fun _ h => ⟨_, State.fetch_of_inside h, highByte_wordOfBytes .., lowByte_wordOfBytes .., wordOfBytes_eq_shift_or ..⟩

/-- Settles O4: the fetch has the bounds condition and no other. -/
theorem fetchAllowedByBoundsOnly : Obligations.FetchAllowedByBoundsOnly := by
  refine fun s => ⟨fun ⟨w, hw⟩ => ?_, fun hpc => ?_⟩
  · obtain ⟨hpc, -⟩ := State.fetch_some.1 hw
    exact Nat.le_of_add_le_add_right (b := 2) hpc
  · exact ⟨_, State.fetch_of_inside (Nat.add_le_add_right hpc 2)⟩

/-- Settles O16: the one transition of a state whose fetch is refused. -/
theorem fetchPastEndIsMemoryBoundsError : Obligations.FetchPastEndIsMemoryBoundsError :=
  fun _ hrun hpc => step_of_past_end hrun hpc

end Sys2Proof.Proofs
end

section
/-! The implemented words: they are exactly the encodings, as words and as bytes (R55, R57, R61). -/

namespace Sys2Proof

theorem decode_eq_operation_iff {w : Word} {i : Instr} : decode w = .operation i ↔ encode i = w :=
  ⟨encode_of_decode, fun h => h ▸ decode_encode i⟩

/-- No two instructions share a word: the decoder tells them apart. -/
theorem encode_injective : Function.Injective encode :=
  fun _ _ h => Decoded.operation.inj ((decode_eq_operation_iff.2 h).symm.trans (decode_encode _))

/-- A word that encodes no instruction is unimplemented (R57). -/
theorem decode_of_not_encoding {w : Word} (h : ∀ i, encode i ≠ w) : decode w = .unimplemented w := by
  cases hd : decode w with
  | operation i => exact absurd (encode_of_decode hd) (h i)
  | unimplemented v => rw [decode_unimplemented hd]

/-- A word whose number R62's table gives for an instruction decodes to that instruction. -/
theorem decode_of_toNat_eq {w : Word} {i : Instr} (h : w.toNat = i.toAsm.word) : decode w = .operation i :=
  decode_eq_operation_iff.2 (BitVec.eq_of_toNat_eq ((encode_toNat i).trans h.symm))

/-- The host's numbering of a word loses none of its bits. -/
theorem ofNat_toNat_mod (w : Word) : BitVec.ofNat 16 (w.toNat % 2 ^ 16) = w := by
  rw [Nat.mod_eq_of_lt w.isLt, BitVec.ofNat_toNat, BitVec.setWidth_eq]

/-- A word laid out in bytes and put together again decodes as the word itself (R61, R71). -/
theorem decodeTableWord_eq_some_iff {w : Word} {i : Instr} :
    decodeTableWord 16 w.toNat = some i ↔ encode i = w := by
  rw [← decode_eq_operation_iff]
  simp only [decodeTableWord, ofNat_toNat_mod, Machine.wordOfBytes_high_low]
  cases decode w <;> simp

end Sys2Proof
end

section
/-! The rows of the opcode table and the instructions they stand for (R55, R57). -/

namespace Sys2Proof

theorem OpRow.selects_iff {r : OpRow} {w : Word} : r.selects w = true ↔ w &&& r.mask = r.pattern :=
  beq_iff_eq

/-- Every instruction's word selects the row that bears its name. -/
theorem exists_row_selects_encode (i : Instr) :
    ∃ r ∈ opTable, r.mnemonic = i.mnemonic ∧ r.selects (encode i) = true := by
  have hown : Laws.SelectsOwnRow.Statement i := by
    cases i with
    | halt => exact Laws.SelectsOwnRow.halt
    | ret => exact Laws.SelectsOwnRow.ret
    | call nnn => exact Laws.SelectsOwnRow.call nnn
    | add x y => exact Laws.SelectsOwnRow.add x y
  obtain ⟨-, -, hrow⟩ := hown
  exact hrow

/-- Masking with ones leaves a 4-bit field as it is. -/
theorem nibble_of_masked {w m p : Word} (start : Nat) (h : w &&& m = p)
    (hm : m.extractLsb' start 4 = BitVec.allOnes 4) : w.extractLsb' start 4 = p.extractLsb' start 4 := by
  rw [← h, BitVec.extractLsb'_and, hm, BitVec.and_allOnes]

/-- A word with the opcode of CALL is a CALL, whatever its other fields (R59). -/
theorem decode_of_call_fields {w : Word} (hc : (fieldsOf w).c = 2) :
    decode w = .operation (.call (fieldsOf w).nnn) := by
  simp [decode, hc]

/-- A word with the opcode and the last field of ADD is an ADD, whatever its other fields (R59). -/
theorem decode_of_add_fields {w : Word} (hc : (fieldsOf w).c = 8) (hd : (fieldsOf w).d = 4) :
    decode w = .operation (.add (fieldsOf w).x.toFin (fieldsOf w).y.toFin) := by
  simp [decode, hc, hd]

/-- A word that a row selects decodes to an instruction of that row's name. -/
theorem decode_of_row_selects {r : OpRow} (hr : r ∈ opTable) {w : Word} (h : r.selects w = true) :
    ∃ i, decode w = .operation i ∧ i.mnemonic = r.mnemonic := by
  rw [OpRow.selects_iff] at h
  simp only [opTable, List.mem_cons, List.not_mem_nil, or_false] at hr
  obtain rfl | rfl | rfl | rfl := hr
  · have hw : w = encode .halt := BitVec.and_allOnes.symm.trans h
    exact ⟨.halt, hw ▸ decode_encode .halt, rfl⟩
  · have hw : w = encode .ret := BitVec.and_allOnes.symm.trans h
    exact ⟨.ret, hw ▸ decode_encode .ret, rfl⟩
  · have hc : (fieldsOf w).c = 2 := nibble_of_masked 12 h rfl
    exact ⟨_, decode_of_call_fields hc, rfl⟩
  · have hc : (fieldsOf w).c = 8 := nibble_of_masked 12 h rfl
    have hd : (fieldsOf w).d = 4 := nibble_of_masked 0 h rfl
    exact ⟨_, decode_of_add_fields hc hd, rfl⟩

/-- The rows of the table have different names. -/
theorem row_eq_of_mnemonic_eq : ∀ r ∈ opTable, ∀ q ∈ opTable, r.mnemonic = q.mnemonic → r = q := by
  decide

/-- The rows are disjoint: a word has one decoding, and it names the row (R57). -/
theorem row_unique {r q : OpRow} (hr : r ∈ opTable) (hq : q ∈ opTable) {w : Word} (hrw : r.selects w = true)
    (hqw : q.selects w = true) : r = q := by
  obtain ⟨i, hi, hir⟩ := decode_of_row_selects hr hrw
  obtain ⟨j, hj, hjq⟩ := decode_of_row_selects hq hqw
  have hij : i = j := Decoded.operation.inj (hi.symm.trans hj)
  exact row_eq_of_mnemonic_eq r hr q hq (hir.symm.trans (hij ▸ hjq))

end Sys2Proof
end

section
/-! All instructions, and the numbers of their words (R56, R59). -/

namespace Sys2Proof

/-- Every CALL: all 4096 targets (R59). -/
def allCalls : Finset Instr := Finset.univ.image fun n : Fin 4096 => .call (BitVec.ofFin n)

/-- Every ADD: all 256 pairs of registers (R59). -/
def allAdds : Finset Instr := Finset.univ.image fun p : RegIndex × RegIndex => .add p.1 p.2

/-- Every instruction with every operand; `mem_allInstrs` says that none is left out. -/
def allInstrs : Finset Instr := {.halt, .ret} ∪ (allCalls ∪ allAdds)

theorem call_mem_allCalls (nnn : Target) : .call nnn ∈ allCalls :=
  Finset.mem_image.2 ⟨nnn.toFin, Finset.mem_univ _, rfl⟩

theorem add_mem_allAdds (x y : RegIndex) : .add x y ∈ allAdds :=
  Finset.mem_image.2 ⟨(x, y), Finset.mem_univ _, rfl⟩

theorem mem_allInstrs (i : Instr) : i ∈ allInstrs := by
  cases i with
  | halt => exact Finset.mem_union_left _ (Finset.mem_insert_self ..)
  | ret => exact Finset.mem_union_left _ (Finset.mem_insert_of_mem (Finset.mem_singleton_self _))
  | call nnn => exact Finset.mem_union_right _ (Finset.mem_union_left _ (call_mem_allCalls nnn))
  | add x y => exact Finset.mem_union_right _ (Finset.mem_union_right _ (add_mem_allAdds x y))

theorem card_allCalls : allCalls.card = 4096 := by
  have hinj : Function.Injective fun n : Fin 4096 => Instr.call (BitVec.ofFin n) :=
    fun _ _ h => congrArg BitVec.toFin (Instr.call.inj h)
  rw [allCalls, Finset.card_image_of_injective _ hinj, Finset.card_univ, Fintype.card_fin]

theorem card_allAdds : allAdds.card = 256 := by
  have hinj : Function.Injective fun p : RegIndex × RegIndex => Instr.add p.1 p.2 :=
    fun _ _ h => Prod.ext_iff.2 (Instr.add.inj h)
  rw [allAdds, Finset.card_image_of_injective _ hinj, Finset.card_univ, Fintype.card_prod, Fintype.card_fin]
  rfl

/-- 1 + 1 + 4096 + 256 (R56). -/
theorem card_allInstrs : allInstrs.card = 4354 := by
  have hcalls : Disjoint allCalls allAdds := by
    simp [Finset.disjoint_left, allCalls, allAdds]
  have hplain : Disjoint {Instr.halt, Instr.ret} (allCalls ∪ allAdds) := by
    simp [allCalls, allAdds]
  rw [allInstrs, Finset.card_union_of_disjoint hplain, Finset.card_union_of_disjoint hcalls, card_allCalls,
    card_allAdds, Finset.card_pair (by decide)]

/-- The implemented numbers are the numbers of the instructions' words. -/
theorem implementedNumbers_eq_image :
    ((Finset.range 65536).filter fun n => (decodeTableWord 16 n).isSome = true) =
      allInstrs.image fun i => (encode i).toNat := by
  ext n
  simp only [Finset.mem_filter, Finset.mem_range, Finset.mem_image, mem_allInstrs, true_and,
    Option.isSome_iff_exists]
  constructor
  · rintro ⟨hn, i, hi⟩
    have hw : (BitVec.ofNat 16 n).toNat = n := Nat.mod_eq_of_lt hn
    exact ⟨i, by rw [decodeTableWord_eq_some_iff.1 (hw ▸ hi), hw]⟩
  · rintro ⟨i, rfl⟩
    exact ⟨(encode i).isLt, i, decodeTableWord_eq_some_iff.2 rfl⟩

/-- The numbers that fail a test are those that do not pass it. -/
theorem card_filter_false {s : Finset Nat} {p : Nat → Bool} {total passing failing : Nat} (hs : s.card = total)
    (hp : (s.filter fun n => p n = true).card = passing) (h : passing + failing = total) :
    (s.filter fun n => p n = false).card = failing := by
  have hsum := Finset.card_filter_add_card_filter_not (s := s) fun n => p n = true
  simp only [Bool.not_eq_true, hs, hp] at hsum
  omega

/-- Each instruction has one word, so there are as many implemented words as instructions. -/
theorem card_implementedNumbers :
    ((Finset.range 65536).filter fun n => (decodeTableWord 16 n).isSome = true).card = 4354 := by
  rw [implementedNumbers_eq_image, Finset.card_image_of_injective, card_allInstrs]
  exact fun i j h => encode_injective (BitVec.eq_of_toNat_eq h)

end Sys2Proof
end

section
/-! The assembler form: its terms in range are the forms of the instructions (R62). -/

namespace Sys2Proof

theorem toAsm_of_toInstr {a : AsmInstr} {i : Instr} (h : a.toInstr = some i) : i.toAsm = a := by
  cases a with
  | halt => cases h; rfl
  | ret => cases h; rfl
  | call n =>
    simp only [AsmInstr.toInstr] at h
    split at h
    · cases h
      simp only [Instr.toAsm, BitVec.toNat_ofNat, Nat.mod_eq_of_lt ‹_›]
    · cases h
  | add x y =>
    simp only [AsmInstr.toInstr] at h
    split at h
    · cases h; rfl
    · cases h

/-- The ranges of R62 are those of the operand types. -/
theorem wellFormed_iff_toInstr (a : AsmInstr) : a.wellFormed = true ↔ ∃ i, a.toInstr = some i := by
  cases a with
  | halt => exact iff_of_true rfl ⟨.halt, rfl⟩
  | ret => exact iff_of_true rfl ⟨.ret, rfl⟩
  | call n => simp [AsmInstr.wellFormed, AsmInstr.toInstr]
  | add x y => simp [AsmInstr.wellFormed, AsmInstr.toInstr]

end Sys2Proof
end

section
/-! One word placed at `pc` (R61). -/

namespace Sys2Proof.Machine

/-- What a memory reads after two writes at different addresses. -/
theorem Memory.read_write_write {m : Memory} (hm : m.wf) {a a' : Addr} (hne : a ≠ a') (b b' : Byte) :
    ((m.write a b).write a' b').read a = b ∧ ((m.write a b).write a' b').read a' = b' ∧
    ∀ c, c ≠ a → c ≠ a' → ((m.write a b).write a' b').read c = m.read c := by
  refine ⟨?_, read_write_self _ a' b' (write_wf m a b hm), fun c hc hc' => ?_⟩
  · rw [read_write_ne _ b' hne, read_write_self m a b hm]
  · rw [read_write_ne _ b' hc', read_write_ne m b hc]

/-- Placing a word is two writes of a byte and the start of the loop. -/
theorem State.withFetchWord_eq {s : State} (w : Word) (h : s.pc.toNat + 1 < Config.memSize) :
    s.withFetchWord 16 w.toNat =
      ((s.writeMem ⟨s.pc.toNat, Nat.lt_of_succ_lt h⟩ (highByte w)).writeMem ⟨s.pc.toNat + 1, h⟩
        (lowByte w)).setRun .running := by
  rw [withFetchWord, ofNat_toNat_mod, placeWord, dif_pos h]

end Sys2Proof.Machine
end

section
/-! The statements on the encoding, settled. -/

namespace Sys2Proof.Proofs

open Sys2Proof Sys2Proof.Machine

/-- Settles O10: the decoder reads the fields the encoder wrote, and the byte layout loses no bit. -/
theorem decodeOfEncode : Obligations.DecodeOfEncode :=
  fun i => ⟨decode_encode i, decodeTableWord_eq_some_iff.2 rfl⟩

/-- Settles O11: the number of a decoded word is that of its instruction in the table of R62. -/
theorem encodeOfDecode : Obligations.EncodeOfDecode :=
  fun _ _ h => encode_of_decode h

/-- Settles O7: a selected word's masked fields are its row's, and an unselected word encodes no instruction. -/
theorem decodeFollowsOpcodeTable : Obligations.DecodeFollowsOpcodeTable := by
  intro w
  refine ⟨fun r hr q hq => row_unique hr hq, fun i hi => ?_, fun r hr => decode_of_row_selects hr, fun hnone => ?_⟩
  · exact encode_of_decode hi ▸ exists_row_selects_encode i
  · refine decode_of_not_encoding fun i hi => ?_
    obtain ⟨r, hr, -, hsel⟩ := exists_row_selects_encode i
    simp [hi, hnone r hr] at hsel

/-- Settles O8: the number of a word decides which instruction's encoding it is, or that it is none's. -/
theorem decodeMapOfAllWords : Obligations.DecodeMapOfAllWords := by
  intro w
  refine ⟨fun h => decode_of_toNat_eq (i := .halt) h, fun h => decode_of_toNat_eq (i := .ret) h,
    fun nnn h => decode_of_toNat_eq (i := .call nnn) h, fun x y h => decode_of_toNat_eq (i := .add x y) h,
    fun hhalt hret hcall hadd => decode_of_not_encoding fun i hi => ?_⟩
  have hw : w.toNat = i.toAsm.word := hi ▸ encode_toNat i
  cases i with
  | halt => exact hhalt hw
  | ret => exact hret hw
  | call nnn =>
    have hn : nnn.toNat < 4096 := nnn.isLt
    simp only [Instr.toAsm, AsmInstr.word] at hw
    omega
  | add x y =>
    have hx : x.val < 16 := x.isLt
    have hy : y.val < 16 := y.isLt
    simp only [Instr.toAsm, AsmInstr.word] at hw
    omega

/-- Settles O9: the implemented words are counted by their instructions, and the others are the rest. -/
theorem countOfImplementedWords : Obligations.CountOfImplementedWords :=
  ⟨card_implementedNumbers, card_filter_false (Finset.card_range _) card_implementedNumbers rfl⟩

/-- Settles O12: the accepted terms are the assembler forms, whose numbers the encoder writes. -/
theorem assemblerFormMatchesEncoding : Obligations.AssemblerFormMatchesEncoding := by
  refine fun a => ⟨wellFormed_iff_toInstr a, fun i h => ?_⟩
  have ha : i.toAsm = a := toAsm_of_toInstr h
  exact ⟨ha, ha ▸ encode_toNat i⟩

/-- Settles O14: the laws of memory, for two writes at different addresses. -/
theorem placedWordIsFetched : Obligations.PlacedWordIsFetched := by
  intro s w h hwf
  rw [State.withFetchWord_eq w h]
  have hne : (⟨s.pc.toNat, Nat.lt_of_succ_lt h⟩ : Addr) ≠ ⟨s.pc.toNat + 1, h⟩ := by simp
  obtain ⟨hhigh, hlow, hother⟩ := Memory.read_write_write hwf hne (highByte w) (lowByte w)
  have hword := congrArg₂ wordOfBytes hhigh hlow
  rw [wordOfBytes_high_low] at hword
  exact ⟨⟨rfl, State.fetch_some.2 ⟨h, hword.symm⟩⟩, hhigh, hlow,
    fun a hp hp1 => hother a (Fin.ne_of_val_ne hp) (Fin.ne_of_val_ne hp1), rfl, rfl, rfl, rfl, rfl⟩

/-- Settles O13: fixed words, by evaluation of the decoder. -/
theorem sampleWordsDecode : Obligations.SampleWordsDecode := by
  unfold Obligations.SampleWordsDecode
  decide

end Sys2Proof.Proofs
end

section
/-! The fields of a word: masked and shifted out of it, and put together again (R51, R73, R74). -/

namespace Sys2Proof

/-- A field whose bits the mask keeps is the masked word, shifted down to it and cut off (R73). -/
theorem extractLsb'_eq_masked_shifted {m : Word} (w : Word) (start len : Nat)
    (hm : m.extractLsb' start len = BitVec.allOnes len) :
    w.extractLsb' start len = ((w &&& m) >>> start).setWidth len := by
  rw [BitVec.setWidth_ushiftRight_eq_extractLsb, BitVec.extractLsb'_and, hm, BitVec.and_allOnes]

/-- The lowest field needs no shift (R73). -/
theorem extractLsb'_zero_eq_masked {m : Word} (w : Word) (len : Nat)
    (hm : m.extractLsb' 0 len = BitVec.allOnes len) : w.extractLsb' 0 len = (w &&& m).setWidth len := by
  rw [extractLsb'_eq_masked_shifted w 0 len hm, BitVec.ushiftRight_zero]

theorem wordOfNibbles_toNat (c x y d : Nibble) :
    (wordOfNibbles c x y d).toNat = c.toNat * 4096 + x.toNat * 256 + y.toNat * 16 + d.toNat := by
  rw [wordOfNibbles, append_toNat, append_toNat, append_toNat]
  omega

/-- Taking a word apart into nibbles loses no bit (R74). -/
theorem wordOfNibbles_fieldsOf (w : Word) :
    wordOfNibbles (fieldsOf w).c (fieldsOf w).x (fieldsOf w).y (fieldsOf w).d = w :=
  BitVec.eq_of_toNat_eq ((wordOfNibbles_toNat _ _ _ _).trans (toNat_eq_of_fields w).symm)

/-- The address field is the three lower nibbles (R51). -/
theorem nnn_toNat_eq_of_nibbles (w : Word) :
    (fieldsOf w).nnn.toNat = 256 * (fieldsOf w).x.toNat + 16 * (fieldsOf w).y.toNat + (fieldsOf w).d.toNat := by
  obtain ⟨-, hx, hy, hd, hn⟩ := fieldsOf_toNat w
  rw [hx, hy, hd, hn]
  omega

end Sys2Proof
end

section
/-! The statements on the fields of a word, settled. -/

namespace Sys2Proof.Proofs

open Sys2Proof

/-- Settles O5: each mask of R73 keeps all the bits of its field. -/
theorem fieldsByMaskAndShift : Obligations.FieldsByMaskAndShift :=
  fun w => ⟨extractLsb'_eq_masked_shifted w 12 4 rfl, extractLsb'_eq_masked_shifted w 8 4 rfl,
    extractLsb'_eq_masked_shifted w 4 4 rfl, extractLsb'_zero_eq_masked w 4 rfl, extractLsb'_zero_eq_masked w 12 rfl⟩

/-- Settles O6: the nibbles and the address field, compared as numbers with the word they come from. -/
theorem wordRecoverableFromFields : Obligations.WordRecoverableFromFields :=
  fun w => ⟨wordOfNibbles_fieldsOf w, nnn_toNat_eq_of_nibbles w⟩

end Sys2Proof.Proofs
end

section
/-! What one step does to the run state: it always answers, and leaves `Running` only by HALT or by a fatal error
(R80, R81, R120). -/

namespace Sys2Proof.Machine

/-- Some transition always applies: every fetch, decode and stack depth has one (R81). -/
theorem exists_transition (s : State) : ∃ t, Transition s t := by
  cases hf : s.fetch with
  | none => exact ⟨_, .bounds hf⟩
  | some w =>
    cases hd : decode w with
    | unimplemented v =>
      obtain rfl := decode_unimplemented hd
      exact ⟨_, .unimplemented hf hd⟩
    | operation i =>
      rw [← encode_of_decode hd] at hf
      cases i with
      | halt => exact ⟨_, .halt hf⟩
      | ret =>
        have hle := s.sp_le
        by_cases hsp : s.sp.val = 0
        · exact ⟨_, .underflow hf hsp⟩
        · exact ⟨_, .ret hf (Nat.pos_of_ne_zero hsp) (show _ < 16 by omega)⟩
      | call nnn =>
        obtain hsp | hsp := s.sp_le.lt_or_eq
        · exact ⟨_, .call hf hsp⟩
        · exact ⟨_, .overflow hf hsp⟩
      | add fx fy => exact ⟨_, .add hf⟩

theorem exists_step_of_running {s : State} (hrun : s.run = .running) : ∃ t, step s = .next t := by
  obtain ⟨t, htr⟩ := exists_transition s
  exact ⟨t, step_eq_next_iff.2 ⟨hrun, htr⟩⟩

/-- A decoded instruction is executed on the state with the advanced `pc` (R81 to R83). -/
theorem step_of_decode {s : State} {w : Word} {i : Instr} (hw : s.Fetches w) (hd : decode w = .operation i) :
    step s = exec i s.advancePc := by
  obtain ⟨hrun, hf⟩ := hw
  rw [step_of_running hrun]
  exact cycle_of_fetch_encode (encode_of_decode hd ▸ hf)

/-- An unimplemented word is fatal, with `pc` advanced (R85, R124). -/
theorem step_of_unimplemented {s : State} {w : Word} (hw : s.Fetches w) (hd : decode w = .unimplemented w) :
    step s = .next (s.advancePc.raise (.unimplementedOpcodeError w)) := by
  obtain ⟨hrun, hf⟩ := hw
  exact step_eq_next_iff.2 ⟨hrun, .unimplemented hf hd⟩

theorem step_of_preload {s : State} (hrun : s.run = .preload) : step s = .refused .loopNotInvoked := by
  simp [step, hrun]

theorem step_of_halted {s : State} (hrun : s.run = .halted) : step s = .refused .loopHalted := by
  simp [step, hrun]

theorem step_ne_next_of_not_running {s : State} (hrun : s.run ≠ .running) (t : State) : step s ≠ .next t :=
  fun h => hrun (step_next h).1

/-! ### The run state and the record after a transition -/

namespace Transition

variable {s t : State}

/-- Only HALT, the all-zero word, halts (R80, R84). -/
theorem halted_iff (h : Transition s t) (hrun : s.run = .running) : t.run = .halted ↔ s.fetch = some 0 := by
  constructor
  · intro ht
    cases h with
    | halt hf => exact hf
    | call | ret | add => exact absurd (hrun.symm.trans ht) nofun
    | _ => cases ht
  · intro hf
    rw [h.unique (.halt hf)]
    rfl

/-- A faulted outcome is one of the four fatal errors, with its condition and its record (R120). -/
theorem faulted_cases (h : Transition s t) (hrun : s.run = .running) (ht : t.run = .faulted) :
    (s.fetch = none ∧ t.fault = some .memoryBoundsError) ∨
    (∃ nnn, s.AboutToRun (.call nnn) ∧ s.sp.val = 16 ∧ t.fault = some .stackOverflowError) ∨
    (s.AboutToRun .ret ∧ s.sp.val = 0 ∧ t.fault = some .stackUnderflowError) ∨
    (∃ w, s.Fetches w ∧ decode w = .unimplemented w ∧ t.fault = some (.unimplementedOpcodeError w)) := by
  cases h with
  | bounds hf => exact .inl ⟨hf, rfl⟩
  | overflow hf hsp => exact .inr (.inl ⟨_, ⟨hrun, hf⟩, hsp, rfl⟩)
  | underflow hf hsp => exact .inr (.inr (.inl ⟨⟨hrun, hf⟩, hsp, rfl⟩))
  | unimplemented hf hd => exact .inr (.inr (.inr ⟨_, ⟨hrun, hf⟩, hd, rfl⟩))
  | halt => cases ht
  | call | ret | add => exact absurd (hrun.symm.trans ht) nofun

/-- Only a fatal error writes the record (R25). -/
theorem fault_eq (h : Transition s t) (ht : t.run ≠ .faulted) : t.fault = s.fault := by
  cases h with
  | bounds | unimplemented | overflow | underflow => exact absurd rfl ht
  | _ => rfl

theorem run_ne_preload (h : Transition s t) (hrun : s.run = .running) : t.run ≠ .preload := by
  cases h with
  | call | ret | add => exact fun ht => absurd (hrun.symm.trans ht) nofun
  | _ => nofun

/-- The loop goes on, or has ended for good (R80). -/
theorem running_or_terminal (h : Transition s t) (hrun : s.run = .running) : t.run = .running ∨ t.Terminal := by
  cases ht : t.run with
  | preload => exact absurd ht (h.run_ne_preload hrun)
  | running => exact .inl rfl
  | halted => exact .inr (.inl ht)
  | faulted => exact .inr (.inr ht)

end Transition

end Sys2Proof.Machine
end

section
/-! Every run ends (R87). Each stack frame only ever moves forward in the program: a CALL leaves its frame the link past
itself, and a RET drops its frame. So the room left to the frames, from the outermost to the current one, decreases
lexicographically at every step that keeps the loop running. -/

namespace Sys2Proof.Machine

/-- The room left to each frame, outermost first: how far the address at which it goes on is from the end of the
address space. The current frame, numbered `sp`, goes on at `pc`; the frames above it are absent and have no room. -/
def State.frameRoom (s : State) (j : Fin 17) : Nat :=
  if h : j.val < s.sp.val then 65536 - (s.stack[j.val]'(Nat.lt_of_lt_of_le h s.sp_le)).toNat
  else if j = s.sp then 65536 - s.pc.toNat else 0

namespace State

variable {s t : State}

theorem frameRoom_of_lt {j : Fin 17} (h : j.val < s.sp.val) :
    s.frameRoom j = 65536 - (s.stack[j.val]'(Nat.lt_of_lt_of_le h s.sp_le)).toNat := by
  simp [frameRoom, h]

theorem frameRoom_of_eq {j : Fin 17} (h : j.val = s.sp.val) : s.frameRoom j = 65536 - s.pc.toNat := by
  simp [frameRoom, Fin.ext h]

theorem frameRoom_of_gt {j : Fin 17} (h : s.sp.val < j.val) : s.frameRoom j = 0 := by
  simp [frameRoom, Nat.lt_asymm h, Fin.ne_of_val_ne (Nat.ne_of_gt h)]

/-- The outer frames have their room from the stack alone. -/
theorem frameRoom_eq_of_stack_eq {j : Fin 17} (hstack : t.stack = s.stack) (ht : j.val < t.sp.val)
    (hs : j.val < s.sp.val) : t.frameRoom j = s.frameRoom j := by
  simp only [frameRoom_of_lt ht, frameRoom_of_lt hs, hstack]

end State

/-- A step that goes on leaves the outer frames their room and takes some from the current one. -/
theorem Transition.frameRoom_decreases {s t : State} (h : Transition s t) (hrun : t.run = .running) :
    (∀ j : Fin 17, j.val < s.sp.val → t.frameRoom j = s.frameRoom j) ∧ t.frameRoom s.sp < s.frameRoom s.sp := by
  have hpc : s.pc.toNat < 65536 := s.pc.isLt
  rw [State.frameRoom_of_eq (s := s) rfl]
  cases h with
  | bounds | unimplemented | halt | overflow | underflow => cases hrun
  | call hf hsp =>
    have hlink := advancePc_toNat_of_fetch hf
    refine ⟨fun j hj => ?_, ?_⟩
    · rw [State.frameRoom_of_lt (Nat.lt_succ_of_lt hj), State.frameRoom_of_lt hj, Vector.getElem_set_ne _ _ hj.ne']
    · rw [State.frameRoom_of_lt (Nat.lt_succ_self _), Vector.getElem_set_self, hlink]
      omega
  | ret hf hsp hix =>
    refine ⟨fun j hj => ?_, ?_⟩
    · obtain hlt | htop := Nat.lt_or_eq_of_le (Nat.le_sub_one_of_lt hj)
      · exact State.frameRoom_eq_of_stack_eq rfl hlt hj
      · rw [State.frameRoom_of_eq htop, State.frameRoom_of_lt hj]
        simp only [htop]
    · rw [State.frameRoom_of_gt (Nat.sub_lt hsp one_pos)]
      omega
  | add hf =>
    have hadv := advancePc_toNat_of_fetch hf
    refine ⟨fun j hj => State.frameRoom_eq_of_stack_eq rfl hj hj, (State.frameRoom_of_eq rfl).trans_lt ?_⟩
    rw [State.writeFlag_pc, State.writeReg_pc, hadv]
    omega

/-- A step that goes on goes down the lexicographic order of the rooms, which is well-founded. -/
theorem Transition.frameRoom_lt {s t : State} (h : Transition s t) (hrun : t.run = .running) :
    toLex t.frameRoom < toLex s.frameRoom := by
  obtain ⟨houter, hcurrent⟩ := h.frameRoom_decreases hrun
  exact ⟨s.sp, houter, hcurrent⟩

theorem exists_terminal_of_running {s : State} (hrun : s.run = .running) :
    ∃ fuel, (runLoop fuel s).Terminal := by
  induction hroom : toLex s.frameRoom using WellFoundedLT.induction generalizing s with
  | ind room ih =>
    obtain ⟨t, htr⟩ := exists_transition s
    have hstep := step_eq_next_iff.2 ⟨hrun, htr⟩
    obtain hgo | hend := htr.running_or_terminal hrun
    · obtain ⟨fuel, hfuel⟩ := ih _ (hroom ▸ htr.frameRoom_lt hgo) hgo rfl
      exact ⟨fuel + 1, (runLoop_succ_of_step fuel hstep).symm ▸ hfuel⟩
    · exact ⟨1, (runLoop_succ_of_step 0 hstep).symm ▸ hend⟩

/-! ### The end of a run is final -/

/-- Fuel adds up: a run is a run from where a shorter one stopped. -/
theorem runLoop_add (fuel more : Nat) (s : State) : runLoop (fuel + more) s = runLoop more (runLoop fuel s) := by
  induction fuel generalizing s with
  | zero => rw [Nat.zero_add, runLoop]
  | succ fuel ih =>
    by_cases hex : ∃ t, step s = .next t
    · obtain ⟨t, ht⟩ := hex
      rw [Nat.succ_add, runLoop_succ_of_step _ ht, runLoop_succ_of_step _ ht, ih]
    · have hstop := not_exists.1 hex
      rw [runLoop_of_no_step _ hstop, runLoop_of_no_step _ hstop, runLoop_of_no_step _ hstop]

theorem State.Terminal.run_ne_running {s : State} (h : s.Terminal) : s.run ≠ .running := by
  obtain hrun | hrun := h <;> simp [hrun]

/-- More fuel than a run needs to end changes nothing (D24). -/
theorem runLoop_eq_of_terminal {s : State} {fuel more : Nat} (h : (runLoop fuel s).Terminal) (hle : fuel ≤ more) :
    runLoop more s = runLoop fuel s := by
  obtain ⟨extra, rfl⟩ := Nat.exists_eq_add_of_le hle
  rw [runLoop_add, runLoop_of_no_step _ (step_ne_next_of_not_running h.run_ne_running)]

/-- A run has one end. -/
theorem runLoop_eq_of_terminal_terminal {s : State} {m n : Nat} (hm : (runLoop m s).Terminal)
    (hn : (runLoop n s).Terminal) : runLoop m s = runLoop n s := by
  obtain hle | hle := Nat.le_total m n
  · exact (runLoop_eq_of_terminal hm hle).symm
  · exact runLoop_eq_of_terminal hn hle

end Sys2Proof.Machine
end

section
/-! The statements on dispatch and on the end of a run, settled. -/

namespace Sys2Proof.Proofs

open Sys2Proof Sys2Proof.Machine

/-- Settles O17: a word that no row selects is unimplemented by the decoder, and the transition is the fatal one. -/
theorem unmatchedWordIsUnimplementedOpcodeError : Obligations.UnmatchedWordIsUnimplementedOpcodeError := by
  intro s w hw hnone
  obtain ⟨-, -, -, hunimplemented⟩ := decodeFollowsOpcodeTable w
  exact step_of_unimplemented hw (hunimplemented hnone)

/-- Settles O19: some transition applies to every state. -/
theorem runningStepAlwaysCompletes : Obligations.RunningStepAlwaysCompletes :=
  fun _ hrun => exists_step_of_running hrun

/-- Settles O20: the run state after each transition, and the one transition of each condition. -/
theorem leavesRunningByHaltOrFatalError : Obligations.LeavesRunningByHaltOrFatalError := by
  intro s t h
  obtain ⟨hrun, htr⟩ := step_eq_next_iff.1 h
  refine ⟨htr.halted_iff hrun, ⟨htr.faulted_cases hrun, ?_⟩, htr.fault_eq, htr.run_ne_preload hrun⟩
  rintro (⟨hf, -⟩ | ⟨nnn, ⟨-, hf⟩, hsp, -⟩ | ⟨⟨-, hf⟩, hsp, -⟩ | ⟨w, ⟨-, hf⟩, hd, -⟩)
  · exact htr.unique (.bounds hf) ▸ rfl
  · exact htr.unique (.overflow hf hsp) ▸ rfl
  · exact htr.unique (.underflow hf hsp) ▸ rfl
  · exact htr.unique (.unimplemented hf hd) ▸ rfl

/-- Settles O40: the room left to the frames decreases in a well-founded order while the loop runs. -/
theorem everyRunEnds : Obligations.EveryRunEnds :=
  fun _ hrun => exists_terminal_of_running hrun

/-- Settles O41: the fuel left over runs from a state in which no step is taken. -/
theorem endedRunIsFinal : Obligations.EndedRunIsFinal :=
  fun _ _ h _ hle => runLoop_eq_of_terminal h hle

/-- Settles O42: every run ends, and has one end, which is halted or faulted. -/
theorem runHaltsIffFaultFree : Obligations.RunHaltsIffFaultFree := by
  intro s hrun
  constructor
  · intro hfree
    obtain ⟨fuel, hhalted | hfaulted⟩ := exists_terminal_of_running hrun
    · exact ⟨fuel, hhalted, trivial⟩
    · exact absurd hfaulted (hfree fuel)
  · rintro ⟨fuel, hhalted, -⟩ other hfaulted
    have hend := runLoop_eq_of_terminal_terminal (.inl hhalted) (.inr hfaulted)
    rw [hend, hfaulted] at hhalted
    cases hhalted

/-- Settles O15: the cycle of a fetched word that decodes. -/
theorem stepRunsDecodedInstr : Obligations.StepRunsDecodedInstr :=
  fun _ _ _ hw hd => step_of_decode hw hd

/-- Settles O18: the answer of the step in each run state but `Running`. -/
theorem noStepOutsideRunning : Obligations.NoStepOutsideRunning :=
  ⟨fun _ t hrun => step_ne_next_of_not_running hrun t, fun _ => step_of_preload, fun _ => step_of_halted,
    fun _ _ => step_of_faulted⟩

/-- Settles O23: HALT's handler, and the transition of the all-zero word, which is its encoding. -/
theorem haltStopsTheLoop : Obligations.HaltStopsTheLoop :=
  ⟨fun _ => rfl, fun _ ⟨hrun, hf⟩ => step_eq_next_iff.2 ⟨hrun, .halt hf⟩⟩

end Sys2Proof.Proofs
end

section
/-! Calls and returns along a path of steps: the live entries stay, a CALL leaves its link in the entry it opens. -/

namespace Sys2Proof.Machine

/-- No step writes a live entry of the stack: CALL writes the first free one (R22, R95). -/
theorem Transition.live_entry_eq {s t : State} (h : Transition s t) {k : Nat} (hk : k < Config.stackDepth)
    (hlive : k < s.sp.val) : t.stack[k] = s.stack[k] := by
  cases h with
  | call hf hsp => exact Vector.getElem_set_ne hsp hk hlive.ne'
  | _ => rfl

/-- A fetched CALL with `k` live entries opens the entry `k` and leaves the address after itself there (R95, R97). -/
theorem Transition.call_opens_entry {s t : State} (h : Transition s t) {nnn : Target}
    (hf : s.fetch = some (encode (.call nnn))) {k : Nat} (hk : k < Config.stackDepth) (hsp : s.sp.val = k) :
    t.stack[k].toNat = s.pc.toNat + 2 ∧ t.sp.val = k + 1 ∧ t.run = s.run := by
  subst hsp
  obtain rfl := h.unique (.call hf hk)
  refine ⟨?_, rfl, rfl⟩
  rw [Vector.getElem_set_self, advancePc_toNat_of_fetch hf]

/-- A fetched RET with `k + 1` live entries goes to the entry `k` and drops it (R96). -/
theorem Transition.ret_pops {s t : State} (h : Transition s t) (hf : s.fetch = some (encode .ret)) {k : Nat}
    (hk : k < Config.stackDepth) (hsp : s.sp.val = k + 1) : t.pc = s.stack[k] ∧ t.sp.val = k := by
  have hpred : s.sp.val - 1 = k := by omega
  obtain rfl := h.unique (.ret hf (by omega) (hpred ▸ hk))
  exact ⟨by simp only [hpred], hpred⟩

end Sys2Proof.Machine

namespace Sys2Proof.StepPath

open Sys2Proof.Machine

variable {p : Nat → State} {n : Nat}

theorem transition (hp : StepPath p n) {i : Nat} (hi : i < n) : Transition (p i) (p (i + 1)) :=
  (step_eq_next_iff.1 (hp i hi)).2

/-- An entry that stays live from one state of a path to a later one keeps its value (R97). -/
theorem live_entry_eq (hp : StepPath p n) {k m l : Nat} (hk : k < Config.stackDepth) (hml : m ≤ l) (hln : l ≤ n)
    (hlive : ∀ i, m ≤ i → i < l → k < (p i).sp.val) : (p l).stack[k] = (p m).stack[k] := by
  induction l, hml using Nat.le_induction with
  | base => rfl
  | succ l hml ih =>
    have hlast := (hp.transition hln).live_entry_eq hk (hlive l hml l.lt_succ_self)
    exact hlast.trans (ih (by omega) fun i hmi hil => hlive i hmi (by omega))

/-- Along nested CALLs that start from an empty stack, `sp` counts the CALLs (R95). -/
theorem sp_of_calls (hp : StepPath p n) (h0 : (p 0).sp.val = 0) (hn : n ≤ Config.stackDepth)
    (hcalls : ∀ i, i < n → ∃ nnn, (p i).AboutToRun (.call nnn)) {i : Nat} (hi : i ≤ n) : (p i).sp.val = i := by
  induction i with
  | zero => exact h0
  | succ i ih =>
    obtain ⟨nnn, -, hf⟩ := hcalls i hi
    obtain ⟨-, hsp, -⟩ := (hp.transition hi).call_opens_entry hf (by omega) (ih (by omega))
    exact hsp

/-- Each of the nested CALLs has its own link in the entry it opened (R97, R99). -/
theorem links_of_calls (hp : StepPath p n) (h0 : (p 0).sp.val = 0) (hn : n ≤ Config.stackDepth)
    (hcalls : ∀ i, i < n → ∃ nnn, (p i).AboutToRun (.call nnn)) {k : Nat} (hk : k < Config.stackDepth) (hkn : k < n) :
    (p n).stack[k].toNat = (p k).pc.toNat + 2 := by
  have hsp : ∀ i, i ≤ n → (p i).sp.val = i := fun _ hi => hp.sp_of_calls h0 hn hcalls hi
  have hkept : (p n).stack[k] = (p (k + 1)).stack[k] :=
    hp.live_entry_eq hk hkn le_rfl fun i hki hin => by rw [hsp i hin.le]; exact hki
  obtain ⟨nnn, -, hf⟩ := hcalls k hkn
  obtain ⟨hlink, -, -⟩ := (hp.transition hkn).call_opens_entry hf hk (hsp k hkn.le)
  rw [hkept, hlink]

end Sys2Proof.StepPath
end

section
/-! The statements on CALL and RET, settled. -/

namespace Sys2Proof.Proofs

open Sys2Proof Sys2Proof.Machine

/-- Settles O44: the link the CALL leaves in entry `k` stays while `sp` is above `k`, and the RET goes to it. -/
theorem matchingRetReturnsAfterCall : Obligations.MatchingRetReturnsAfterCall := by
  intro p n k nnn hp hcall hsp hk habove hn hret hspn
  obtain ⟨hlink, -, -⟩ := (hp.transition n.succ_pos).call_opens_entry hcall.2 hk hsp
  have hkept : (p n).stack[k] = (p 1).stack[k] :=
    hp.live_entry_eq hk hn n.le_succ fun i h1 hin => habove i h1 hin.le
  obtain ⟨hpc, hspRet⟩ := (hp.transition n.lt_succ_self).ret_pops hret.2 hk hspn
  exact ⟨by rw [hpc, hkept, hlink], hspRet⟩

/-- Settles O45: `sp` counts the CALLs, each link stays, and one more CALL has room exactly below 16. -/
theorem nestedCallsUpToSixteen : Obligations.NestedCallsUpToSixteen := by
  intro p n hp h0 hn hcalls
  have hsp : (p n).sp.val = n := hp.sp_of_calls h0 hn hcalls le_rfl
  refine ⟨hsp, fun i hi => hp.links_of_calls h0 hn hcalls i.isLt hi, fun nnn ⟨hrun, hf⟩ => ?_⟩
  obtain ⟨t, ht⟩ := exists_step_of_running hrun
  have htr : Transition (p n) t := (step_eq_next_iff.1 ht).2
  refine ⟨t, ht, fun hfull => ?_, fun hroom => ?_⟩
  · obtain rfl := htr.unique (.overflow hf (hsp.trans hfull))
    exact ⟨rfl, rfl⟩
  · obtain ⟨-, -, hkeeps⟩ := htr.call_opens_entry hf hroom hsp
    exact hkeeps.trans hrun

/-- Settles O24: CALL's handler on a stack with room, field by field. -/
theorem callPushesAndJumps : Obligations.CallPushesAndJumps := by
  intro nnn s i hsp
  have hroom : s.sp.val < Config.stackDepth := hsp ▸ i.isLt
  refine ⟨_, execCall_of_room nnn hroom, ?_, rfl, rfl, fun j hj => ?_, rfl, fun _ => rfl, rfl, rfl, rfl⟩
  · simp [hsp]
  · have hne : s.sp.val ≠ j.val := fun h => hj (Fin.ext (h.symm.trans hsp))
    exact Vector.getElem_set_ne hroom j.isLt hne

/-- Settles O25: CALL's handler on a full stack. -/
theorem callOnFullStackIsOverflow : Obligations.CallOnFullStackIsOverflow :=
  fun nnn _ hsp => execCall_of_full nnn hsp

/-- Settles O26: RET's handler on a stack with a live entry, field by field, and on an empty one. -/
theorem retPopsAndJumps : Obligations.RetPopsAndJumps := by
  refine ⟨rfl, fun s i hsp => ?_, fun _ hsp => execRet_of_empty hsp⟩
  have hpred : s.sp.val - 1 = i.val := by omega
  refine ⟨_, execRet_of_live (by omega) (hpred ▸ i.isLt), ?_, hpred, rfl, rfl, fun _ => rfl, rfl, rfl, rfl⟩
  simp only [hpred, Fin.getElem_fin]

end Sys2Proof.Proofs
end

section
/-! What ADD leaves in the register file: the wrapped sum in its destination, then the carry in register 15, which wins
when both are the same register (R105, R106). -/

namespace Sys2Proof.Machine

theorem State.writeReg_get_self (s : State) (i : RegIndex) (v : Byte) : (s.writeReg i v).x[i] = v :=
  Vector.getElem_set_self i.isLt

theorem State.writeReg_get_ne (s : State) {i j : RegIndex} (v : Byte) (h : j ≠ i) : (s.writeReg i v).x[j] = s.x[j] :=
  Vector.getElem_set_ne i.isLt j.isLt fun hij => h (Fin.ext hij.symm)

/-- Doubling a byte carries exactly from 128 on (R106). -/
theorem carryFlag_double (b : Byte) : carryFlag (b.toNat + b.toNat) = if b.toNat ≥ 128 then 1 else 0 :=
  if_congr (by omega) rfl rfl

section

variable {s t : State} {fx fy : RegIndex}

/-- A destination other than register 15 keeps its sum: the later flag write does not touch it (R105). -/
theorem exec_add_destination (h : exec (.add fx fy) s = .next t) (hfx : fx ≠ 15) : t.x[fx] = s.x[fx] + s.x[fy] := by
  cases h
  rw [State.writeFlag, State.writeReg_get_ne _ _ hfx, State.writeReg_get_self]
  exact wrapSum_add _ _

/-- Register 15 holds the carry of the old operands, whatever the destination: the flag is written last (R105). -/
theorem exec_add_flag (h : exec (.add fx fy) s = .next t) : t.x[15] = carryFlag (s.x[fx].toNat + s.x[fy].toNat) := by
  cases h
  exact State.writeReg_get_self _ Config.flagReg _

/-- ADD writes no register but its destination and register 15 (R105). -/
theorem exec_add_other (h : exec (.add fx fy) s = .next t) {j : RegIndex} (hjx : j ≠ fx) (hj : j ≠ 15) :
    t.x[j] = s.x[j] := by
  cases h
  rw [State.writeFlag, State.writeReg_get_ne _ _ hj, State.writeReg_get_ne _ _ hjx]

end

end Sys2Proof.Machine
end

section
/-! The statements on ADD, settled. -/

namespace Sys2Proof.Proofs

open Sys2Proof Sys2Proof.Machine

/-- Settles O27: the registers by the three lemmas on ADD; nothing else is written. -/
theorem addWritesSumThenFlag : Obligations.AddWritesSumThenFlag := by
  intro fx fy s
  refine ⟨encode_toNat _, _, rfl, fun hfx => ?_, exec_add_flag rfl, fun j hjx hj => exec_add_other rfl hjx hj,
    rfl, fun _ => rfl, rfl, rfl, rfl, rfl, rfl⟩
  rw [exec_add_destination rfl hfx, BitVec.toNat_add]

/-- Settles O28: equal operands double, a destination 15 leaves only the flag, a source 15 is read before the flag. -/
theorem addAliasedOperands : Obligations.AddAliasedOperands := by
  refine ⟨fun f s hf => ⟨_, rfl, ?_, ?_⟩, fun fy s hfy => ⟨_, rfl, ?_, ?_⟩, fun s => ⟨_, rfl, ?_⟩,
    fun fx s hfx => ⟨_, rfl, ?_⟩⟩
  · rw [exec_add_destination rfl hf, BitVec.toNat_add, two_mul]
  · exact (exec_add_flag rfl).trans (carryFlag_double _)
  · exact exec_add_other rfl hfy hfy
  · exact exec_add_flag rfl
  · exact (exec_add_flag rfl).trans (carryFlag_double _)
  · exact exec_add_destination rfl hfx

/-- Settles O29: the handler writes only registers, and a fetched ADD is decoded to that handler. -/
theorem addNeverFaults : Obligations.AddNeverFaults := by
  refine ⟨fun _ _ _ => ⟨_, rfl, rfl, rfl⟩, fun fx fy s hs => ?_⟩
  have hstep : step s = exec (.add fx fy) s.advancePc := step_of_decode hs (decode_encode _)
  obtain ⟨hrun, -⟩ := hs
  exact ⟨_, hstep, hrun, rfl⟩

end Sys2Proof.Proofs
end

section
/-! Host writes and reads: accepted in their phase with operands in range, refused by name otherwise (R153 to R157). -/

namespace Sys2Proof.Machine

/-! ### Host writes -/

theorem hostWriteReg_of_preload {s : State} (hrun : s.run = .preload) (i : RegIndex) (v : Byte) :
    hostWriteReg i.val v.toNat s = .next (s.writeReg i v) := by
  have hrange : i.val < Config.numRegs ∧ v.toNat < 256 := ⟨i.isLt, v.isLt⟩
  rw [hostWriteReg, if_pos hrun, dif_pos hrange, BitVec.ofNat_toNat, BitVec.setWidth_eq]

theorem hostWriteMem_of_preload {s : State} (hrun : s.run = .preload) (a : Addr) (v : Byte) :
    hostWriteMem a.val v.toNat s = .next (s.writeMem a v) := by
  have hrange : a.val < Config.memSize ∧ v.toNat < 256 := ⟨a.isLt, v.isLt⟩
  rw [hostWriteMem, if_pos hrun, dif_pos hrange, BitVec.ofNat_toNat, BitVec.setWidth_eq]

theorem hostWriteReg_of_not_preload {s : State} (hrun : s.run ≠ .preload) (i v : Nat) :
    hostWriteReg i v s = .refused .notInPreload :=
  if_neg hrun

theorem hostWriteMem_of_not_preload {s : State} (hrun : s.run ≠ .preload) (a v : Nat) :
    hostWriteMem a v s = .refused .notInPreload :=
  if_neg hrun

/-- The two ways an operand is out of range (R153). -/
theorem not_in_range_iff {n bound v : Nat} : ¬(n < bound ∧ v < 256) ↔ bound ≤ n ∨ 256 ≤ v := by
  omega

theorem hostWriteReg_out_of_range_iff {s : State} (hrun : s.run = .preload) (i v : Nat) :
    hostWriteReg i v s = .refused .hostOperandOutOfRange ↔ Config.numRegs ≤ i ∨ 256 ≤ v := by
  rw [← not_in_range_iff, hostWriteReg, if_pos hrun]
  split
  · exact iff_of_false nofun (not_not.2 ‹_›)
  · exact iff_of_true rfl ‹_›

theorem hostWriteMem_out_of_range_iff {s : State} (hrun : s.run = .preload) (a v : Nat) :
    hostWriteMem a v s = .refused .hostOperandOutOfRange ↔ Config.memSize ≤ a ∨ 256 ≤ v := by
  rw [← not_in_range_iff, hostWriteMem, if_pos hrun]
  split
  · exact iff_of_false nofun (not_not.2 ‹_›)
  · exact iff_of_true rfl ‹_›

/-! ### Host reads -/

theorem hostReadReg_of_halted {s : State} (hrun : s.run = .halted) (i : RegIndex) :
    hostReadReg i.val s = .ok s.x[i] := by
  rw [hostReadReg, if_pos hrun, dif_pos i.isLt, State.readReg_eq]

theorem hostReadReg_ok {s : State} {i : Nat} {v : Byte} (h : hostReadReg i s = .ok v) :
    s.run = .halted ∧ i < Config.numRegs := by
  unfold hostReadReg at h
  split at h
  · split at h
    · exact ⟨‹_›, ‹_›⟩
    · cases h
  · cases h

theorem hostReadFault_ok {s : State} {e : Fault} (h : hostReadFault s = .ok e) :
    s.run = .faulted ∧ s.fault = some e := by
  unfold hostReadFault at h
  split at h
  · split at h
    · cases h
      exact ⟨‹_›, ‹_›⟩
    · cases h
  · cases h

/-! ### The run the host starts -/

theorem hostRun_of_preload {s : State} (hrun : s.run = .preload) : hostRun s = .next (s.setRun .running) :=
  if_pos hrun

theorem hostRun_of_not_preload {s : State} (hrun : s.run ≠ .preload) : hostRun s = .refused .notInPreload :=
  if_neg hrun

theorem State.result_of_halted {s : State} (hrun : s.run = .halted) : s.result = some (.halted s) := by
  simp [State.result, hrun]

theorem State.result_of_faulted {s : State} {e : Fault} (hrun : s.run = .faulted) (hfault : s.fault = some e) :
    s.result = some (.faulted e) := by
  simp [State.result, hrun, hfault]

theorem State.Inv.runLoop {s : State} (hs : s.Inv) (fuel : Nat) : (Machine.runLoop fuel s).Inv :=
  runLoop_induction (P := State.Inv) (fun _ _ hu h => hu.step h) fuel hs

/-- An ended run has the result R86 names: a faulted state has a record by the invariant (R25). -/
theorem State.Inv.result_of_terminal {s : State} (hs : s.Inv) (hend : s.Terminal) :
    (s.run = .halted ∧ s.result = some (.halted s)) ∨
    ∃ e, s.run = .faulted ∧ s.fault = some e ∧ s.result = some (.faulted e) := by
  obtain hhalted | hfaulted := hend
  · exact .inl ⟨hhalted, State.result_of_halted hhalted⟩
  · obtain ⟨e, he⟩ := Option.ne_none_iff_exists'.1 (hs.faultRecord.1 hfaulted)
    exact .inr ⟨e, hfaulted, he, State.result_of_faulted hfaulted he⟩

end Sys2Proof.Machine
end

section
/-! The order of writes to a canonical memory, by what the memories read (R159). -/

namespace Sys2Proof.Machine.Memory

theorem write_comm {m : Memory} (hm : m.wf) {a a' : Addr} (hne : a ≠ a') (b b' : Byte) :
    (m.write a b).write a' b' = (m.write a' b').write a b := by
  have hab := write_wf m a b hm
  have hab' := write_wf m a' b' hm
  refine eq_of_read_eq (write_wf _ a' b' hab) (write_wf _ a b hab') fun c => ?_
  obtain ⟨ha, ha', hother⟩ := read_write_write hm hne b b'
  obtain ⟨ha'Swapped, haSwapped, hotherSwapped⟩ := read_write_write hm hne.symm b' b
  by_cases hca : c = a
  · rw [hca, ha, haSwapped]
  by_cases hca' : c = a'
  · rw [hca', ha', ha'Swapped]
  · rw [hother c hca hca', hotherSwapped c hca' hca]

theorem write_write_self {m : Memory} (hm : m.wf) (a : Addr) (b b' : Byte) :
    (m.write a b).write a b' = m.write a b' := by
  have hab := write_wf m a b hm
  refine eq_of_read_eq (write_wf _ a b' hab) (write_wf m a b' hm) fun c => ?_
  by_cases hca : c = a
  · rw [hca, read_write_self _ a b' hab, read_write_self m a b' hm]
  · rw [read_write_ne _ b' hca, read_write_ne m b hca, read_write_ne m b' hca]

end Sys2Proof.Machine.Memory
end

section
/-! The statements on the host interface and on the order inside a step, settled. -/

namespace Sys2Proof.Proofs

open Sys2Proof Sys2Proof.Machine

/-- Settles O37: a host operation that is not refused is one write of the state, which keeps the invariant. -/
theorem hostOperationsKeepInv : Obligations.HostOperationsKeepInv :=
  ⟨fun _ _ _ _ hs h => hs.hostWriteReg h, fun _ _ _ _ hs h => hs.hostWriteMem h, fun _ _ hs h => hs.hostRun h⟩

/-- Settles O43: the started run ends, and keeps the invariant, so that its end has a result. -/
theorem hostRunReturnsResult : Obligations.HostRunReturnsResult := by
  refine ⟨fun _ hrun => hostRun_of_not_preload hrun, fun s hs hrun => ?_⟩
  obtain ⟨hpc, -, -⟩ := hs.preloadFresh hrun
  have hstart := hostRun_of_preload hrun
  obtain ⟨fuel, hend⟩ := exists_terminal_of_running (s := s.setRun .running) rfl
  exact ⟨hstart, hpc, fuel, _, rfl, ((hs.hostRun hstart).runLoop fuel).result_of_terminal hend⟩

/-- Settles O47: the two orders of writing give canonical memories that read the same. -/
theorem hostMemoryWritesCommute : Obligations.HostMemoryWritesCommute :=
  fun _ a _ b b' hm => ⟨fun hne => Memory.write_comm hm hne b b', Memory.write_write_self hm a b b'⟩

/-- Settles O30: CALL's transition leaves the advanced `pc` in its entry, and ADD's flag write is its last. -/
theorem orderInsideAStep : Obligations.OrderInsideAStep := by
  refine ⟨fun s nnn i ⟨hrun, hf⟩ hsp => ?_, fun s fy hadd => ?_⟩
  · obtain ⟨t, ht⟩ := exists_step_of_running hrun
    obtain ⟨-, htr⟩ := step_eq_next_iff.1 ht
    obtain ⟨hlink, -, -⟩ := htr.call_opens_entry hf i.isLt hsp
    exact ⟨t, ht, hlink⟩
  · exact ⟨_, step_of_decode hadd (decode_encode _), exec_add_flag (s := s.advancePc) rfl⟩

/-- Settles O48: the accepted write, field by field. -/
theorem hostWriteRegWritesOneRegister : Obligations.HostWriteRegWritesOneRegister :=
  fun s i v hrun => ⟨_, hostWriteReg_of_preload hrun i v, s.writeReg_get_self i v,
    fun _ hj => s.writeReg_get_ne v hj, rfl, rfl, rfl, rfl, rfl, rfl⟩

/-- Settles O49: the accepted write, by the laws of memory and field by field. -/
theorem hostWriteMemWritesOneByte : Obligations.HostWriteMemWritesOneByte :=
  fun s a v hrun hwf => ⟨_, hostWriteMem_of_preload hrun a v, Memory.read_write_self s.mem a v hwf,
    fun _ hb => Memory.read_write_ne s.mem v hb, rfl, rfl, rfl, rfl, rfl, rfl⟩

/-- Settles O50: the two refusals of each host write. -/
theorem hostWritesRefusedOutsideTheirPhase : Obligations.HostWritesRefusedOutsideTheirPhase :=
  ⟨fun _ i v hrun => ⟨hostWriteReg_of_not_preload hrun i v, hostWriteMem_of_not_preload hrun i v⟩,
    fun _ i v hrun => ⟨hostWriteReg_out_of_range_iff hrun i v, hostWriteMem_out_of_range_iff hrun i v⟩⟩

/-- Settles O51: what each read answers in its phase, and the phase of every answer. -/
theorem hostReadsOnlyAfterTheEnd : Obligations.HostReadsOnlyAfterTheEnd :=
  ⟨fun _ i hrun => hostReadReg_of_halted hrun i, fun _ _ _ h => hostReadReg_ok h,
    fun _ _ => ⟨hostReadFault_ok, fun ⟨hrun, hfault⟩ => hostReadFault_of_faulted hrun hfault⟩⟩

end Sys2Proof.Proofs
end
